-- ==== Sys2Proof/Word.lean ====
section
/-! DEFINITION. The byte (rule R6): every value the block sends, masks or stores is 8 bits wide, bit 0 of weight 1. -/

namespace Sys2Proof

/-- A byte, bits numbered 7 down to 0 (R6). -/
abbrev Byte := BitVec 8

end Sys2Proof
end

