-- ==== Sys2Proof/Config.lean ====
section
/-! DEFINITION. The parameters of rule R5, the types of what the environment answers, and the free values: what an
implementation fixes and what the spec leaves open. -/

namespace Sys2Proof

/-- Which drawing strategy is built in (R5, R128): `basic` has no pixel buffer. Fixed at instantiation. -/
inductive Mode where
  | basic
  | buffered
deriving DecidableEq, Repr, Inhabited

/-- PARAMETER (R5, decision D18): which values the type `TransportFault` has besides the one it certainly has. Nothing is
known of it (log 12). -/
opaque Config.isTransportFault : Nat → Bool

/-- PARAMETER (R5, decision D18): which values the type `PinFault` has besides the one it certainly has (log 12). -/
opaque Config.isPinFault : Nat → Bool

/-- The value a failed transport call returns (R5, R140): a parameter of the block, opaque and non-empty. Its values are
labelled, and which labels there are is open but for one; so no two of its values can be proved distinct, nor that there is
only one. The block only passes a value on; a label is no code of the spec (log 12). -/
structure TransportFault where
  label : Nat
  known : (label == 0 || Config.isTransportFault label) = true
deriving DecidableEq, Repr

/-- The value a failed reset-pin call returns (R5, R140), a parameter likewise; log 12. -/
structure PinFault where
  label : Nat
  known : (label == 0 || Config.isPinFault label) = true
deriving DecidableEq, Repr

/-- The one value that is certain: the type is non-empty (R5). -/
def TransportFault.some : TransportFault := { label := 0, known := rfl }

/-- The one value that is certain: the type is non-empty (R5). -/
def PinFault.some : PinFault := { label := 0, known := rfl }

/-- What the environment answers to a fallible call (R8): `ok`, or a failure with its value. -/
inductive Answer (φ : Type) where
  | ok
  | fault (info : φ)
deriving DecidableEq, Repr, Inhabited

/-- The two levels of the reset pin (R8). -/
inductive Level where
  | high
  | low
deriving DecidableEq, Repr, Inhabited

/-- The parameters of rule R5 that a state carries; no step changes them. -/
structure Config where
  /-- WIDTH: pixels per row, which is also the buffer bytes of one band (R5, R40). -/
  width : Nat
  /-- HEIGHT: pixel rows (R5). -/
  height : Nat
  /-- CHUNK: the largest number of bytes `flush` passes to one data-channel call (R5, R46). -/
  chunk : Nat
  /-- MODE (R5, R128). -/
  mode : Mode
deriving DecidableEq, Repr

/-- N, the bytes of the pixel buffer: WIDTH×HEIGHT/8 (R5, R21; conflict C6: bytes, not bits). -/
def Config.bytes (c : Config) : Nat := c.width * c.height / 8

/-- The constraints of rule R5. `1 ≤ height` is DEDUCED from R123's "N ≥ 1" (log 34). -/
abbrev Config.wf (c : Config) : Prop :=
  1 ≤ c.width ∧ c.width ≤ 128 ∧ 1 ≤ c.height ∧ c.height % 8 = 0 ∧ c.height / 8 ≤ 32 ∧ 1 ≤ c.chunk

/-- FREE VALUE (R32, decision D5, U7): what buffer byte `i` holds at instantiation, before anything has written it.
Nothing is known of it; in particular not that it is zero (log 4). -/
opaque Config.initialByte : Nat → Byte

/-- FREE VALUE (R5, decision D2): CHUNK is open. `State.reset` takes one more than this number, so that CHUNK ≥ 1
(log 2). -/
opaque Config.openChunk : Nat

/-- FREE VALUE (R8, R31): the transport's answer to its n-th call, where no answer is listed in the state (log 6). -/
opaque Config.freeTxAnswer : Nat → Answer TransportFault

/-- FREE VALUE (R8, R31): the pin's answer to its n-th call, where no answer is listed in the state (log 6). -/
opaque Config.freePinAnswer : Nat → Answer PinFault

end Sys2Proof
end

