-- ==== Sys2Proof/Syntax.lean ====
section
/-! DEFINITION. The closed set of 14 Commands (rule R60), one constructor per row of the opcode table, in its order.
An operand is the 8-bit input before masking (R63), a flag is one bit (R64). -/

namespace Sys2Proof

/-- A Command (R60, R71): variant and operands, in the order of the table. -/
inductive Instr where
  /-- Band cursor address (R80). -/
  | ayAddress (a : Byte)
  /-- Bias (R81). -/
  | bias (b : Byte)
  /-- Voltage clock (R82). -/
  | voltageClock (c : Byte)
  /-- Power control (R83). -/
  | powerControl (p : Byte)
  /-- Display on or off (R84). -/
  | displayOn (on : Bool)
  /-- Start line (R85). -/
  | startLine (line : Byte)
  /-- The four display control flags (R86). -/
  | displayControl (shl adc eon rev : Bool)
  /-- Band window, first and last band (R87). -/
  | ayWindow (first last : Byte)
  /-- Column window, first and last column (R88). -/
  | axWindow (first last : Byte)
  /-- Software reset of the downstream controller (R89). -/
  | swReset
  /-- Display multiplexing ratio (R90). -/
  | duty (d : Byte)
  /-- Contrast (R91). -/
  | contrast (c : Byte)
  /-- Column cursor address (R92). -/
  | axAddress (a : Byte)
  /-- Booster level (R93). -/
  | booster (level : Byte)
deriving DecidableEq, Repr

end Sys2Proof
end

