-- ==== Sys2Proof/WellFormed.lean ====
section
/-! DEFINITION. Well-formed Commands: those whose operands fit the width their field lets through (R26, R63), so that
the encoding carries every bit of them. A Command that is not well-formed is no error: it is masked (R63, R142) and
executes; it is merely not the Command a receiver reads back (log 33). -/

namespace Sys2Proof

/-- The operand fits a field of `width` bits. -/
def fits (width : Nat) (v : Byte) : Bool := decide (v.toNat < 2 ^ width)

/-- Every operand fits its field (widths of R26 and R63). -/
def Instr.wf : Instr → Bool
  | .ayAddress a => fits 5 a
  | .bias b => fits 6 b
  | .voltageClock c => fits 6 c
  | .powerControl p => fits 8 p
  | .displayOn _ => true
  | .startLine line => fits 8 line
  | .displayControl _ _ _ _ => true
  | .ayWindow first last => fits 5 first && fits 5 last
  | .axWindow first last => fits 7 first && fits 7 last
  | .swReset => true
  | .duty d => fits 8 d
  | .contrast c => fits 8 c
  | .axAddress a => fits 7 a
  | .booster level => fits 2 level

end Sys2Proof
end

