-- ==== Sys2Proof/Decode.lean ====
section
/-! DEFINITION. Reading a Command from bytes (rules R66 to R69, R75) and writing one as bytes (R60 to R65, R80 to R94).
The block itself only encodes (R67); the decoder is the receiver's, and the way a Command given as bytes enters the
machine (log 9). -/

namespace Sys2Proof

/-! ### Decoding -/

/-- Why bytes are not a Command of this block. -/
inductive DecodeError where
  /-- No byte at all: an encoded Command is 1 to 3 bytes (R61). -/
  | empty
  /-- Byte 0 is one of the 223 values that are no Command (R68, decision D25). -/
  | notACommand (byte0 : Byte)
  /-- Fewer bytes than the variant's count (R65). -/
  | truncated (byte0 : Byte)
  /-- A parameter byte with a bit set that the mask always clears, so never sent (R69). -/
  | neverSent (byte0 parameter : Byte)
  /-- More bytes in the call than the variant's count (R65, R69). -/
  | trailing (rest : List Byte)
deriving DecidableEq, Repr

/-- Reads one parameter byte whose bits outside `keep` must be 0 (R63, R69). -/
def readParameter (keep byte0 : Byte) : List Byte → Except DecodeError (Byte × List Byte)
  | [] => .error (.truncated byte0)
  | p :: rest => if p &&& ~~~keep = 0 then .ok (p, rest) else .error (.neverSent byte0 p)

/-- Format P1 after byte 0: one parameter (R61). -/
def readP1 (make : Byte → Instr) (keep byte0 : Byte) (rest : List Byte) :
    Except DecodeError (Instr × List Byte) :=
  match readParameter keep byte0 rest with
  | .ok (p, rest) => .ok (make p, rest)
  | .error e => .error e

/-- Format P2 after byte 0: two parameters under the same mask, window start first (R61). -/
def readP2 (make : Byte → Byte → Instr) (keep byte0 : Byte) (rest : List Byte) :
    Except DecodeError (Instr × List Byte) :=
  match readParameter keep byte0 rest with
  | .error e => .error e
  | .ok (p, rest) =>
    match readParameter keep byte0 rest with
    | .ok (q, rest) => .ok (make p q, rest)
    | .error e => .error e

/-- The Command at the head of a byte sequence and the bytes after it. Byte 0 decides the variant and the length
(R66); the rows stand in ascending order of byte 0, as in R66. -/
def decode : List Byte → Except DecodeError (Instr × List Byte)
  | [] => .error .empty
  | b :: rest =>
    if b = 0x01 then readP1 .ayAddress 0x1F b rest
    else if b = 0x30 then readP1 .bias 0x3F b rest
    else if b = 0x31 then readP1 .voltageClock 0x3F b rest
    else if b = 0x33 then readP1 .powerControl 0xFF b rest
    else if b &&& 0xFE = 0x3C then .ok (.displayOn (b.getLsbD 0), rest)
    else if b = 0x40 then readP1 .startLine 0xFF b rest
    else if b &&& 0xF0 = 0x60 then
      .ok (.displayControl (b.getLsbD 3) (b.getLsbD 2) (b.getLsbD 1) (b.getLsbD 0), rest)
    else if b = 0x74 then readP2 .ayWindow 0x1F b rest
    else if b = 0x75 then readP2 .axWindow 0x7F b rest
    else if b = 0x76 then .ok (.swReset, rest)
    else if b = 0x90 then readP1 .duty 0xFF b rest
    else if b = 0xB1 then readP1 .contrast 0xFF b rest
    else if b = 0xC0 then readP1 .axAddress 0x7F b rest
    else if b &&& 0xFC = 0xFC then .ok (.booster (b &&& 0x03), rest)
    else .error (.notACommand b)

/-- Reads the bytes of one command-channel call: the call boundary frames the Command, so nothing may follow it
(R65, R67). -/
def decodeFrame (bytes : List Byte) : Except DecodeError Instr :=
  match decode bytes with
  | .error e => .error e
  | .ok (i, []) => .ok i
  | .ok (_, b :: rest) => .error (.trailing (b :: rest))

/-- Reads the fixed array of `encode` (R94, decision D8): after the Command's own bytes only zeros stand. -/
def decodeArray (bytes : List Byte) : Except DecodeError Instr :=
  match decode bytes with
  | .error e => .error e
  | .ok (i, rest) => if rest.all (· == 0) then .ok i else .error (.trailing rest)

/-! ### Encoding -/

/-- A flag in bit `position` (R64, R7: false is 0 and true is 1, shifted left). -/
def flagBit (flag : Bool) (position : Nat) : Byte := (if flag then 1 else 0) <<< position

/-- Format P1 (R61): opcode, then the parameter with the bits outside `keep` dropped (R63). -/
def formatP1 (opcode keep p : Byte) : List Byte := [opcode, p &&& keep]

/-- Format P2 (R61): opcode, then two parameters, each masked on its own (R63, R87). -/
def formatP2 (opcode keep p q : Byte) : List Byte := [opcode, p &&& keep, q &&& keep]

/-- The exact bytes of a Command, byte 0 first (R60, R80 to R93). Where the table gives no mask the parameter passes
whole (R63). -/
def encode : Instr → List Byte
  | .ayAddress a => formatP1 0x01 0x1F a
  | .bias b => formatP1 0x30 0x3F b
  | .voltageClock c => formatP1 0x31 0x3F c
  | .powerControl p => [0x33, p]
  | .displayOn on => [0x3C ||| flagBit on 0]
  | .startLine line => [0x40, line]
  | .displayControl shl adc eon rev =>
    [0x60 ||| flagBit shl 3 ||| flagBit adc 2 ||| flagBit eon 1 ||| flagBit rev 0]
  | .ayWindow first last => formatP2 0x74 0x1F first last
  | .axWindow first last => formatP2 0x75 0x7F first last
  | .swReset => [0x76]
  | .duty d => [0x90, d]
  | .contrast c => [0xB1, c]
  | .axAddress a => formatP1 0xC0 0x7F a
  | .booster level => [0xFC ||| (level &&& 0x03)]

/-- The byte count of a Command's variant (the table column of R60; R65: it never depends on an operand). -/
def byteCount : Instr → Nat
  | .displayOn _ | .displayControl _ _ _ _ | .swReset | .booster _ => 1
  | .ayAddress _ | .bias _ | .voltageClock _ | .powerControl _ | .startLine _ | .duty _ | .contrast _
  | .axAddress _ => 2
  | .ayWindow _ _ | .axWindow _ _ => 3

/-- The `bytes` result of the operation `encode` (R94): a 3-byte array whose tail is zero (decision D8, log 13). -/
def encodeArray (i : Instr) : List Byte := encode i ++ List.replicate (3 - (encode i).length) 0

/-- The `length` result of the operation `encode` (R94). -/
def encodeLength (i : Instr) : Nat := (encode i).length

/-! ### The opcode table as numbers (R75) -/

/-- One row of the machine-readable table (R75): byte count, and the pattern as two numbers with byte 0 the most
significant byte. -/
structure TableRow where
  length : Nat
  mask : Nat
  pattern : Nat
deriving DecidableEq, Repr

/-- The row of a Command's variant (R75, the columns `length_bytes`, `mask` and `match`). -/
def tableRow : Instr → TableRow
  | .ayAddress _ => ⟨2, 0xFFE0, 0x0100⟩
  | .bias _ => ⟨2, 0xFFC0, 0x3000⟩
  | .voltageClock _ => ⟨2, 0xFFC0, 0x3100⟩
  | .powerControl _ => ⟨2, 0xFF00, 0x3300⟩
  | .displayOn _ => ⟨1, 0xFE, 0x3C⟩
  | .startLine _ => ⟨2, 0xFF00, 0x4000⟩
  | .displayControl _ _ _ _ => ⟨1, 0xF0, 0x60⟩
  | .ayWindow _ _ => ⟨3, 0xFFE0E0, 0x740000⟩
  | .axWindow _ _ => ⟨3, 0xFF8080, 0x750000⟩
  | .swReset => ⟨1, 0xFF, 0x76⟩
  | .duty _ => ⟨2, 0xFF00, 0x9000⟩
  | .contrast _ => ⟨2, 0xFF00, 0xB100⟩
  | .axAddress _ => ⟨2, 0xFF80, 0xC000⟩
  | .booster _ => ⟨1, 0xFC, 0xFC⟩

/-- A byte sequence as one number, byte 0 the most significant byte (R75: "only the file's way of writing"). -/
def beNat (bytes : List Byte) : Nat := bytes.foldl (fun n b => n * 256 + b.toNat) 0

/-- A byte sequence fits a row (R75): it has the row's length and its masked number is the row's pattern. -/
def TableRow.admits (r : TableRow) (bytes : List Byte) : Bool :=
  bytes.length == r.length && (beNat bytes &&& r.mask) == r.pattern

/-- The bytes of a table word of `nbits` bits: R75's numbering, byte 0 the most significant byte; then zeros up to the
longest Command (log 10). -/
def tableBytes (nbits w : Nat) : List Byte :=
  let n := nbits / 8
  (List.range n).map (fun j => BitVec.ofNat 8 (w >>> (8 * (n - 1 - j)))) ++ List.replicate (3 - n) 0

/-- The Command the decoder reads from a word of the opcode table (log 10). -/
def decodeTableWord (nbits w : Nat) : Option Instr :=
  match decodeArray (tableBytes nbits w) with
  | .ok i => some i
  | .error _ => none

end Sys2Proof
end

