-- ==== Sys2Proof/Machine/State.lean ====
section
/-! DEFINITION. The machine's state (rules R20 to R33), the host operations (R72), the events and results (R8, R140), the
reasons to stop, and the state at instantiation (R160). -/

namespace Sys2Proof.Machine

/-- The pixel buffer's written bytes: cells (index, byte), indices strictly rising (`Memory.wf`). An unlisted index is a
byte nothing has written; it reads as the free value `Config.initialByte` (log 4). -/
abbrev Memory := List Host.Cell

/-- A pixel event of the external rendering layer: a signed position and on or off (R127, decision D16). -/
structure PixelEvent where
  px : Int
  py : Int
  on : Bool
deriving DecidableEq, Repr

/-- The 11 host operations (R72). They have no encoding. -/
inductive HostOp where
  /-- `encode(command)` (R94). -/
  | encode (c : Instr)
  /-- `send(command)` (R95). -/
  | send (c : Instr)
  /-- `reset(reset_pin, delay)` (R101). -/
  | reset
  /-- `init(delay)` (R102). -/
  | init
  /-- `draw(buffer)` (R103). -/
  | draw (buffer : List Byte)
  /-- `set_display_on(on)` (R104). -/
  | setDisplayOn (on : Bool)
  /-- `set_draw_area((sx, sy), (ex, ey))` (R105). -/
  | setDrawArea (sx sy ex ey : Byte)
  /-- `clear()` (R121). -/
  | clear
  /-- `set_pixel(x, y, value)` (R122). -/
  | setPixel (x y : Nat) (value : Bool)
  /-- `flush()` (R123). -/
  | flush
  /-- `draw_pixels(events)` (R127). While it runs, the events still to come. -/
  | drawPixels (events : List PixelEvent)
deriving DecidableEq, Repr

/-- What the host has asked for and the block has not begun: an operation, or the MODEL's own form `encoded`, a `send`
whose Command is given as its bytes (the 3-byte array of `encode`), which the step decodes (log 9). -/
inductive Request where
  | op (o : HostOp)
  | encoded (bytes : List Byte)
deriving DecidableEq, Repr

/-- One outward call of an operation's sequence (R8, R11). -/
inductive Call where
  /-- One `send`: a Command on the command channel (R95). -/
  | send (c : Instr)
  /-- The caller's bytes on the data channel (R103). -/
  | data (bytes : List Byte)
  /-- `length` buffer bytes from index `start` on the data channel (R123). -/
  | chunk (start length : Nat)
  /-- The reset pin driven to a level (R101). -/
  | pin (level : Level)
  /-- A blocking sleep of that many milliseconds (R156). -/
  | delay (ms : Nat)
deriving DecidableEq, Repr

/-- An element of the trace (R8), a fallible one with the answer it got. -/
inductive Event where
  | cmd (bytes : List Byte) (answer : Answer TransportFault)
  | data (bytes : List Byte) (answer : Answer TransportFault)
  | pin (level : Level) (answer : Answer PinFault)
  | wait (ms : Nat)
deriving DecidableEq, Repr

/-- The block's two faults (R140). They are results the host receives, not stops of the machine. -/
inductive OpFault where
  | transport (t : TransportFault)
  | pin (e : PinFault)
deriving DecidableEq, Repr

/-- What an operation returns (R72, R140): `Ok`, the pair of `encode` (R94), or `Err` with a fault. -/
inductive OpResult where
  | ok
  | encoded (bytes : List Byte) (length : Nat)
  | err (f : OpFault)
deriving DecidableEq, Repr

/-- Inputs from the environment and the record of what the block did. R31 keeps these out of the block's state record, and
they are not in it (`Block`); they stand beside it because the host's interface steps one state alone (log 7). -/
structure Run where
  /-- The operation in progress, none between operations (R10, R160). -/
  running : Option HostOp
  /-- The operations the host will invoke, first first (R158, R180). -/
  requests : List Request
  /-- The transport's coming answers, first first; past the end they are free (log 6). -/
  txAnswers : List (Answer TransportFault)
  /-- The pin's coming answers, first first; past the end they are free (log 6). -/
  pinAnswers : List (Answer PinFault)
  /-- Transport calls made so far: which free answer comes next (log 6). -/
  txCalls : Nat
  /-- Pin calls made so far (log 6). -/
  pinCalls : Nat
  /-- The events so far, oldest first (R8). -/
  trace : List Event
  /-- The results of the finished operations, oldest first (R180). -/
  results : List OpResult
deriving DecidableEq, Repr

/-- THE BLOCK'S STATE RECORD: "exactly this state and nothing else" (R20). No parameter, no answer and no trace stands in it
(R31). -/
structure Block where
  /-- The pixel buffer (R21); empty with MODE = Basic (R33). -/
  fb : Memory
  /-- The sequencer's step index (R23). -/
  stepIdx : Nat
deriving DecidableEq, Repr

/-- What the host's interface steps: the block's state record, and beside it what R31 keeps out of that record: the fixed
parameters, and the run record. `blockStep` (Machine/Relation.lean) is the same step as a function of the parameters, the
block's record and the environment's inputs (log 7). -/
structure State extends Block where
  /-- WIDTH, HEIGHT, CHUNK, MODE (R5); no step changes them. -/
  cfg : Config
  /-- The environment's side and the record of the run (R31). -/
  run : Run
deriving DecidableEq, Repr

/-- Why the machine stops: only in states the spec excludes (log 30). -/
inductive Fault where
  /-- A buffer access outside indices 0 to N−1 (R8: "requires addr+n ≤ N"; R28). Raised by `set_pixel` and `flush`;
  unreachable when R5's constraints hold. Safe: the spec gives no such access a meaning. -/
  | noSuchBufferByte (index : Nat)
  /-- CHUNK = 0, which R5 excludes. Raised by `flush`. Safe. -/
  | zeroChunk
deriving DecidableEq, Repr

/-- Why a request is given no meaning. -/
inductive Refusal where
  /-- An instruction without a meaning yet, raised by `exec` alone; no arm of this model does. Safe. -/
  | notModelled (mnemonic : String)
  /-- A buffer operation with MODE = Basic: "A model refuses" it there (R128, decision D13). Raised by the sequencer when
  the operation would begin. Safe. -/
  | absentInBasic (o : HostOp)
  /-- Bytes given for execution that are no Command of this block (R68, U15). Raised by the sequencer. Safe. -/
  | notACommand (why : DecodeError)
deriving DecidableEq, Repr

/-- The three outcomes of a step of this machine. -/
abbrev StepOutcome := Host.Outcome State Fault Refusal

/-- Nothing asked for, nothing answered, nothing done (R160: the trace is empty, no operation is running). -/
def Run.idle : Run :=
  { running := none, requests := [], txAnswers := [], pinAnswers := [], txCalls := 0, pinCalls := 0,
    trace := [], results := [] }

/-- The block as instantiated with given parameters (R160): every byte of `FB` unwritten, `step` without meaning (0 here,
log 5), no operation running, the trace empty. -/
def State.resetWith (c : Config) : State := { cfg := c, fb := [], stepIdx := 0, run := Run.idle }

/-- The parameters of this hardware (R5): 128 × 128, CHUNK open (log 2), MODE = Buffered (log 3). -/
def Config.thisHardware : Config :=
  { width := 128, height := 128, chunk := Config.openChunk + 1, mode := .buffered }

/-- The machine right after instantiation (R32, R160). -/
def State.reset : State := State.resetWith Config.thisHardware

end Sys2Proof.Machine
end

