-- ==== Sys2Proof/Machine/Operands.lean ====
section
/-! DEFINITION. Operand forms of the host operations (rules R40, R45, R74, R126, R129): the band of a coordinate, the
pixel form, the chunk form, and one bit of a byte. The Commands' own operand forms, masks and flag places, are in
Sys2Proof/Decode.lean beside the encoder. -/

namespace Sys2Proof.Machine

/-- The band of an 8-bit coordinate: divided by 8, rounded down (R45, R74). -/
def bandOf (c : Byte) : Byte := c / 8

/-- The coordinate names a pixel of the display (R28, R51): the test of `set_pixel` (conflict C2, log 17). -/
def pixelInside (c : Config) (x y : Nat) : Bool := decide (x < c.width) && decide (y < c.height)

/-- The buffer index of a pixel (R40). -/
def pixelIndex (c : Config) (x y : Nat) : Nat := y / 8 * c.width + x

/-- The bit of a pixel inside its byte, of weight 2^bit (R40, R41; log 16). -/
def pixelBit (y : Nat) : Nat := y % 8

/-- The byte with one bit set or cleared, the other bits untouched (R74: `b | (1 << bit)`, `b & ~(1 << bit)`). -/
def putBit (b : Byte) (bit : Nat) (value : Bool) : Byte :=
  if value then b ||| ((1 : Byte) <<< bit) else b &&& ~~~((1 : Byte) <<< bit)

/-- The bounding box of the pixel-event adapter: its top-left corner and its size (R126; log 21). -/
def boundingBox (c : Config) : (Int × Int) × (Nat × Nat) := ((0, 0), (c.width, c.height))

/-- A signed position lies inside the bounding box (R126). -/
def insideBox (c : Config) (px py : Int) : Bool :=
  decide (0 ≤ px) && decide (px < c.width) && decide (0 ≤ py) && decide (py < c.height)

/-- The first buffer index of chunk `k` (R46). -/
def chunkStart (c : Config) (k : Nat) : Nat := k * c.chunk

/-- The length of chunk `k`: CHUNK, or what is left for the last (R46, R123). -/
def chunkLength (c : Config) (k : Nat) : Nat := min c.chunk (c.bytes - k * c.chunk)

end Sys2Proof.Machine
end

