-- ==== Sys2Proof/Machine/Ops.lean ====
section
/-! DEFINITION. The primitives of rule R8 over the state: the pixel buffer, the four outward calls, taking a fault, and the
end of an operation. -/

namespace Sys2Proof.Machine

/-! ### The pixel buffer -/

/-- The canonical form: indices strictly rising. (An unlisted byte holds no written value, so no entry can equal it.) -/
abbrev Memory.wf (m : Memory) : Prop := m.Pairwise (fun c d => c.1 < d.1)

/-- Every listed index is below `n`. -/
abbrev Memory.below (n : Nat) (m : Memory) : Prop := ∀ c ∈ m, c.1 < n

/-- The value last written at an index, none if nothing has written it. -/
def Memory.read : Memory → Nat → Option Byte
  | [], _ => none
  | (b, w) :: rest, a => if a = b then some w else Memory.read rest a

/-- Writes one byte, keeping the canonical form. -/
def Memory.write : Memory → Nat → Byte → Memory
  | [], a, v => [(a, v)]
  | (b, w) :: rest, a, v =>
    if a < b then (a, v) :: (b, w) :: rest
    else if a = b then (a, v) :: rest
    else (b, w) :: Memory.write rest a v

/-- Writes consecutive bytes, the first at `a`. -/
def Memory.writeList : Memory → Nat → List Byte → Memory
  | m, _, [] => m
  | m, a, v :: vs => Memory.writeList (Memory.write m a v) (a + 1) vs

/-- A buffer of `n` bytes, all written with `v`. -/
def Memory.fill (n : Nat) (v : Byte) : Memory := (List.range n).map (fun i => (i, v))

/-- What an unwritten byte reads as: a free value, the same at every read (R32, U7; log 4). -/
def unwritten (i : Nat) : Byte := Config.initialByte i

/-- The byte at an index of the pixel buffer, written or not. -/
def State.fbByte (s : State) (i : Nat) : Byte := (Memory.read s.fb i).getD (unwritten i)

/-- `FB[i]` (R8); none outside 0 ≤ i < N, an index that does not exist. -/
def State.fbRead (s : State) (i : Nat) : Option Byte := if i < s.cfg.bytes then some (s.fbByte i) else none

/-- `FB[i] <- v` (R8); none outside 0 ≤ i < N. -/
def State.fbWrite (s : State) (i : Nat) (v : Byte) : Option State :=
  if i < s.cfg.bytes then some { s with fb := Memory.write s.fb i v } else none

/-- `MemRead(addr, n)` (R8); none unless addr + n ≤ N. -/
def State.memRead (s : State) (addr n : Nat) : Option (List Byte) :=
  if addr + n ≤ s.cfg.bytes then some ((List.range n).map (fun j => s.fbByte (addr + j))) else none

/-- `MemWrite(addr, n, v)` (R8), n the length of v; none unless addr + n ≤ N. -/
def State.memWrite (s : State) (addr : Nat) (v : List Byte) : Option State :=
  if addr + v.length ≤ s.cfg.bytes then some { s with fb := Memory.writeList s.fb addr v } else none

/-! ### Small updates -/

/-- Appends an event to the trace. -/
def State.emit (s : State) (e : Event) : State := { s with run := { s.run with trace := s.run.trace ++ [e] } }

/-- The transport's next answer: the first listed one, else a free value (log 6). -/
def State.nextTx (s : State) : Answer TransportFault :=
  match s.run.txAnswers with
  | a :: _ => a
  | [] => Config.freeTxAnswer s.run.txCalls

/-- The pin's next answer: the first listed one, else a free value (log 6). -/
def State.nextPin (s : State) : Answer PinFault :=
  match s.run.pinAnswers with
  | a :: _ => a
  | [] => Config.freePinAnswer s.run.pinCalls

/-- The transport has answered once. -/
def State.takeTx (s : State) : State :=
  { s with run := { s.run with txAnswers := s.run.txAnswers.tail, txCalls := s.run.txCalls + 1 } }

/-- The pin has answered once. -/
def State.takePin (s : State) : State :=
  { s with run := { s.run with pinAnswers := s.run.pinAnswers.tail, pinCalls := s.run.pinCalls + 1 } }

/-- `step` advances by exactly 1 (R23). -/
def State.advance (s : State) : State := { s with stepIdx := s.stepIdx + 1 }

/-- The running operation becomes `o` (the rest of a `draw_pixels`). -/
def State.withRunning (s : State) (o : HostOp) : State := { s with run := { s.run with running := some o } }

/-- The pixel buffer becomes `m`. -/
def State.withFb (s : State) (m : Memory) : State := { s with fb := m }

/-- The host invokes `o`, the first of its requests: `step` is 0 when an operation starts (R23). -/
def State.begin (s : State) (o : HostOp) (rest : List Request) : State :=
  { s with stepIdx := 0, run := { s.run with running := some o, requests := rest } }

/-! ### The end of an operation -/

/-- `return v` (R8): the running operation ends with a result and the block is ready for the next (R150). There is no
other return: no handler runs, so nothing returns from a fault. -/
def State.finish (s : State) (r : OpResult) : State :=
  { s with run := { s.run with running := none, results := s.run.results ++ [r] } }

/-- `raise <Fault>(info)` (R8, R143 to R145): TAKING A FAULT, the one operation every failing call goes through. The
running operation ends at once with `Err`; nothing is saved and nothing rolled back; `step` stays at the failing call's
position. -/
def State.raise (s : State) (f : OpFault) : State := s.finish (.err f)

/-! ### The outward calls -/

/-- `call TxCmd(bs)` (R8): one `send_commands` call. -/
def State.txCmd (s : State) (bytes : List Byte) : State :=
  match s.nextTx with
  | .ok => (s.emit (.cmd bytes .ok)).takeTx.advance
  | .fault t => ((s.emit (.cmd bytes (.fault t))).takeTx).raise (.transport t)

/-- `call TxData(bs)` (R8): one `send_data` call. -/
def State.txData (s : State) (bytes : List Byte) : State :=
  match s.nextTx with
  | .ok => (s.emit (.data bytes .ok)).takeTx.advance
  | .fault t => ((s.emit (.data bytes (.fault t))).takeTx).raise (.transport t)

/-- `call PinSet(level)` (R8): one `set_high` or `set_low` call. -/
def State.pinSet (s : State) (level : Level) : State :=
  match s.nextPin with
  | .ok => (s.emit (.pin level .ok)).takePin.advance
  | .fault e => ((s.emit (.pin level (.fault e))).takePin).raise (.pin e)

/-- `call DelayMs(n)` (R8): one blocking sleep, which cannot fail (R156, log 24). -/
def State.delayMs (s : State) (ms : Nat) : State := (s.emit (.wait ms)).advance

/-- `send(c)` (R95): encode, then exactly one command-channel call with exactly `length` bytes (log 14). -/
def transmit (c : Instr) (s : State) : StepOutcome := .next (s.txCmd ((encodeArray c).take (encodeLength c)))

/-- Applies a change to the next state of an outcome; a stop stays as it is. -/
def mapNext (o : StepOutcome) (f : State → State) : StepOutcome :=
  match o with
  | .next s => .next (f s)
  | .fault r => .fault r
  | .refused r => .refused r

end Sys2Proof.Machine
end

