-- ==== Sys2Proof/Machine/FormatE1.lean ====
section
/-! DEFINITION. The meanings of the three Commands of format E1, one byte with embedded fields (rules R61, R62). -/

namespace Sys2Proof.Machine

/-- DisplayOn(on): `[0x3C | on]` (R84). -/
def execDisplayOn (on : Bool) (s : State) : StepOutcome := transmit (.displayOn on) s

/-- DisplayControl(shl, adc, eon, rev): `[0x60 | shl<<3 | adc<<2 | eon<<1 | rev]` (R86). -/
def execDisplayControl (shl adc eon rev : Bool) (s : State) : StepOutcome :=
  transmit (.displayControl shl adc eon rev) s

/-- Booster(level): `[0xFC | (level & 0x03)]` (R93). -/
def execBooster (level : Byte) (s : State) : StepOutcome := transmit (.booster level) s

end Sys2Proof.Machine
end

