-- ==== Sys2Proof/Machine/FormatO.lean ====
section
/-! DEFINITION. The meaning of the one Command of format O, an opcode alone (rule R61). -/

namespace Sys2Proof.Machine

/-- SWReset: `[0x76]`; it resets nothing in the block (R89, R162). -/
def execSWReset (s : State) : StepOutcome := transmit .swReset s

end Sys2Proof.Machine
end

