-- ==== Sys2Proof/Machine/FormatP1.lean ====
section
/-! DEFINITION. The meanings of the eight Commands of format P1, an opcode and one parameter byte (rule R61). Executing a
Command is sending it: one command-channel call (R95). No Command changes the pixel buffer. -/

namespace Sys2Proof.Machine

/-- AYAddress(a): `[0x01, a & 0x1F]` (R80). -/
def execAYAddress (a : Byte) (s : State) : StepOutcome := transmit (.ayAddress a) s

/-- Bias(b): `[0x30, b & 0x3F]` (R81). -/
def execBias (b : Byte) (s : State) : StepOutcome := transmit (.bias b) s

/-- VoltageClock(c): `[0x31, c & 0x3F]` (R82). -/
def execVoltageClock (c : Byte) (s : State) : StepOutcome := transmit (.voltageClock c) s

/-- PowerControl(p): `[0x33, p]` (R83). -/
def execPowerControl (p : Byte) (s : State) : StepOutcome := transmit (.powerControl p) s

/-- StartLine(s): `[0x40, s]` (R85). -/
def execStartLine (line : Byte) (s : State) : StepOutcome := transmit (.startLine line) s

/-- Duty(d): `[0x90, d]` (R90). -/
def execDuty (d : Byte) (s : State) : StepOutcome := transmit (.duty d) s

/-- Contrast(c): `[0xB1, c]` (R91). -/
def execContrast (c : Byte) (s : State) : StepOutcome := transmit (.contrast c) s

/-- AXAddress(a): `[0xC0, a & 0x7F]` (R92). -/
def execAXAddress (a : Byte) (s : State) : StepOutcome := transmit (.axAddress a) s

end Sys2Proof.Machine
end

