-- ==== Sys2Proof/Machine/FormatP2.lean ====
section
/-! DEFINITION. The meanings of the two Commands of format P2, an opcode and two parameter bytes (rule R61). -/

namespace Sys2Proof.Machine

/-- AYWindow(s, e): `[0x74, s & 0x1F, e & 0x1F]`, no check of start against end (R87). -/
def execAYWindow (first last : Byte) (s : State) : StepOutcome := transmit (.ayWindow first last) s

/-- AXWindow(s, e): `[0x75, s & 0x7F, e & 0x7F]`, no check of start against end (R88). -/
def execAXWindow (first last : Byte) (s : State) : StepOutcome := transmit (.axWindow first last) s

end Sys2Proof.Machine
end

