-- ==== Sys2Proof/Machine/Dispatch.lean ====
section
/-! DEFINITION. exec: one arm per Command of the opcode table. -/

namespace Sys2Proof.Machine

/-- What a Command does when it is sent (R95), whichever operation sends it. -/
def exec (i : Instr) (s : State) : Host.Outcome State Fault Refusal :=
  match i with
  | .ayAddress a => Sys2Proof.Machine.execAYAddress a s
  | .bias b => Sys2Proof.Machine.execBias b s
  | .voltageClock c => Sys2Proof.Machine.execVoltageClock c s
  | .powerControl p => Sys2Proof.Machine.execPowerControl p s
  | .displayOn on => Sys2Proof.Machine.execDisplayOn on s
  | .startLine line => Sys2Proof.Machine.execStartLine line s
  | .displayControl shl adc eon rev => Sys2Proof.Machine.execDisplayControl shl adc eon rev s
  | .ayWindow first last => Sys2Proof.Machine.execAYWindow first last s
  | .axWindow first last => Sys2Proof.Machine.execAXWindow first last s
  | .swReset => Sys2Proof.Machine.execSWReset s
  | .duty d => Sys2Proof.Machine.execDuty d s
  | .contrast c => Sys2Proof.Machine.execContrast c s
  | .axAddress a => Sys2Proof.Machine.execAXAddress a s
  | .booster level => Sys2Proof.Machine.execBooster level s

end Sys2Proof.Machine
end

