-- ==== Sys2Proof/Machine/Sequence.lean ====
section
/-! DEFINITION. Running a fixed sequence of outward calls, one call a step (rules R11, R23, R52, R159). -/

namespace Sys2Proof.Machine

/-- Makes one outward call (R8). -/
def perform (c : Call) (s : State) : StepOutcome :=
  match c with
  | .send i => exec i s
  | .data bytes => .next (s.txData bytes)
  | .chunk start length =>
    match s.memRead start length with
    | some bytes => .next (s.txData bytes)
    | none => .fault (.noSuchBufferByte (start + length))
  | .pin level => .next (s.pinSet level)
  | .delay ms => .next (s.delayMs ms)

/-- After a call: the operation ends with `Ok` when `step` reaches the length of its sequence (R23), that is when the
sequence has no call there; a fault has already ended it. -/
def endIfDone (calls : Nat → Option Call) (s : State) : State :=
  match s.run.running with
  | none => s
  | some _ =>
    match calls s.stepIdx with
    | none => s.finish .ok
    | some _ => s

/-- One step of an operation whose calls are `calls 0`, `calls 1`, … up to the first none. -/
def runSequence (calls : Nat → Option Call) (s : State) : StepOutcome :=
  match calls s.stepIdx with
  | none => .next (s.finish .ok)
  | some c => mapNext (perform c s) (endIfDone calls)

end Sys2Proof.Machine
end

