-- ==== Sys2Proof/Machine/Buffered.lean ====
section
/-! DEFINITION. The Buffered Drawing Mode's host operations (rules R120 to R129): clear, set_pixel, flush and
draw_pixels. -/

namespace Sys2Proof.Machine

/-- `clear()` (R121): every byte of the buffer becomes 0; no event. -/
def opClear (s : State) : StepOutcome := .next ((s.withFb (Memory.fill s.cfg.bytes 0)).finish .ok)

/-- One pixel of the buffer set or cleared (R122): a read-modify-write of one byte under the coordinate test, nothing at
all outside it. -/
def plot (x y : Nat) (value : Bool) (s : State) : StepOutcome :=
  if pixelInside s.cfg x y then
    match s.fbRead (pixelIndex s.cfg x y) with
    | none => .fault (.noSuchBufferByte (pixelIndex s.cfg x y))
    | some b =>
      match s.fbWrite (pixelIndex s.cfg x y) (putBit b (pixelBit y) value) with
      | none => .fault (.noSuchBufferByte (pixelIndex s.cfg x y))
      | some t => .next t
  else .next s

/-- `set_pixel(x, y, value)` (R122). -/
def opSetPixel (x y : Nat) (value : Bool) (s : State) : StepOutcome := mapNext (plot x y value s) (·.finish .ok)

/-- The calls of `flush()` (R123): call k carries chunk k, while there is one. -/
def flushCalls (c : Config) (k : Nat) : Option Call :=
  if chunkStart c k < c.bytes then some (.chunk (chunkStart c k) (chunkLength c k)) else none

/-- `flush()` (R123): data calls only (R124); `step` is its loop variable (R23). CHUNK = 0 is excluded by R5. -/
def opFlush (s : State) : StepOutcome :=
  if s.cfg.chunk = 0 then .fault .zeroChunk else runSequence (flushCalls s.cfg) s

/-- One pixel event: filtered by the bounding box, then `set_pixel` (R127). -/
def applyEvent (e : PixelEvent) (s : State) : StepOutcome :=
  if insideBox s.cfg e.px e.py then plot e.px.toNat e.py.toNat e.on s else .next s

/-- One step of `draw_pixels(events)` (R127): the first event, then the rest is what is still to do (log 21, 27). -/
def opDrawPixels (events : List PixelEvent) (s : State) : StepOutcome :=
  match events with
  | [] => .next (s.finish .ok)
  | [e] => mapNext (applyEvent e s) (·.finish .ok)
  | e :: rest => mapNext (applyEvent e s) (·.withRunning (.drawPixels rest))

end Sys2Proof.Machine
end

