-- ==== Sys2Proof/Machine/Encoder.lean ====
section
/-! DEFINITION. The Command Encoder's host operations `encode` and `send` (rules R94 to R96). -/

namespace Sys2Proof.Machine

/-- `encode(c)` (R94): pure, no call, no event; the host gets the 3-byte array and the length. -/
def opEncode (c : Instr) (s : State) : StepOutcome := .next (s.finish (.encoded (encodeArray c) (encodeLength c)))

/-- The one call of `send(c)` (R95). -/
def sendCalls (c : Instr) : List Call := [.send c]

/-- `send(c)` (R95). -/
def opSend (c : Instr) (s : State) : StepOutcome := runSequence (fun k => (sendCalls c)[k]?) s

end Sys2Proof.Machine
end

