-- ==== Sys2Proof/Machine/Handle.lean ====
section
/-! DEFINITION. The Controller Handle's host operations (rules R100 to R108): reset, init, draw, set_display_on and
set_draw_area, each a fixed sequence of outward calls. -/

namespace Sys2Proof.Machine

/-- The six steps of `reset` (R101). -/
def resetCalls : List Call := [.pin .high, .delay 1, .pin .low, .delay 10, .pin .high, .delay 20]

/-- `reset(reset_pin, delay)` (R101). -/
def opReset (s : State) : StepOutcome := runSequence (fun k => resetCalls[k]?) s

/-- The 24 steps of `init` (R102; the three Booster sends: log 19). -/
def initCalls : List Call :=
  [ .send .swReset, .delay 50, .send (.displayOn false), .send (.duty 128), .send (.bias 16),
    .send (.voltageClock 0x3F), .send (.powerControl 0x20), .delay 100, .send (.powerControl 0x2C), .delay 100,
    .send (.booster 3), .send (.booster 3), .send (.booster 3), .delay 100, .send (.powerControl 0x2F), .delay 200,
    .send (.displayControl false true false false), .send (.ayWindow 0 0xF), .send (.axWindow 0 0x7F),
    .send (.startLine 64), .send (.ayAddress 0), .send (.axAddress 0), .send (.contrast 110),
    .send (.displayOn true) ]

/-- `init(delay)` (R102). -/
def opInit (s : State) : StepOutcome := runSequence (fun k => initCalls[k]?) s

/-- The one call of `draw(buffer)`, whatever the length (R103; log 20). -/
def drawCalls (buffer : List Byte) : List Call := [.data buffer]

/-- `draw(buffer)` (R103). -/
def opDraw (buffer : List Byte) (s : State) : StepOutcome := runSequence (fun k => (drawCalls buffer)[k]?) s

/-- The one send of `set_display_on(on)` (R104; log 31). -/
def setDisplayOnCalls (on : Bool) : List Call := [.send (.displayOn on)]

/-- `set_display_on(on)` (R104). -/
def opSetDisplayOn (on : Bool) (s : State) : StepOutcome := runSequence (fun k => (setDisplayOnCalls on)[k]?) s

/-- The four sends of `set_draw_area((sx, sy), (ex, ey))`, the source's mapping taken literally: `ey` is not used (R105,
conflict C1; log 18). -/
def setDrawAreaCalls (sx sy ex _ey : Byte) : List Call :=
  [.send (.ayWindow (bandOf sx) (bandOf ex)), .send (.axWindow sx ex), .send (.axAddress sy),
    .send (.ayAddress (bandOf sx))]

/-- `set_draw_area(start, end)` (R105). -/
def opSetDrawArea (sx sy ex ey : Byte) (s : State) : StepOutcome :=
  runSequence (fun k => (setDrawAreaCalls sx sy ex ey)[k]?) s

end Sys2Proof.Machine
end

