-- ==== Sys2Proof/Machine/Sequencer.lean ====
section
/-! DEFINITION. The sequencer: which operation the next step belongs to (rules R48, R52, R158, R160) and one step of it
(R11). -/

namespace Sys2Proof.Machine

/-- The operation exists in this mode (R72, R128). -/
def HostOp.availableIn (m : Mode) : HostOp → Bool
  | .clear | .setPixel _ _ _ | .flush | .drawPixels _ => m == .buffered
  | .encode _ | .send _ | .reset | .init | .draw _ | .setDisplayOn _ | .setDrawArea _ _ _ _ => true

/-- What the next step is about. -/
inductive Fetched where
  /-- No operation runs and the host has asked for none (R160: "the block does nothing"). -/
  | idle
  /-- A step of `o`, from this state. -/
  | run (o : HostOp) (s : State)
  /-- The host's request has no meaning here. -/
  | refuse (r : Refusal)
deriving DecidableEq, Repr

/-- The running operation goes on; else the host's next request begins (R52, R158), a Command given as bytes being
decoded first (log 9). -/
def fetch (s : State) : Fetched :=
  match s.run.running with
  | some o => .run o s
  | none =>
    match s.run.requests with
    | [] => .idle
    | .op o :: rest => if o.availableIn s.cfg.mode then .run o (s.begin o rest) else .refuse (.absentInBasic o)
    | .encoded bytes :: rest =>
      match decodeArray bytes with
      | .ok i => .run (.send i) (s.begin (.send i) rest)
      | .error e => .refuse (.notACommand e)

/-- One step of an operation: one outward call or one buffer update (R11). -/
def runOp (o : HostOp) (s : State) : StepOutcome :=
  match o with
  | .encode c => opEncode c s
  | .send c => opSend c s
  | .reset => opReset s
  | .init => opInit s
  | .draw buffer => opDraw buffer s
  | .setDisplayOn on => opSetDisplayOn on s
  | .setDrawArea sx sy ex ey => opSetDrawArea sx sy ex ey s
  | .clear => opClear s
  | .setPixel x y value => opSetPixel x y value s
  | .flush => opFlush s
  | .drawPixels events => opDrawPixels events s

/-- One step of the machine. -/
def sequencerStep (s : State) : StepOutcome :=
  match fetch s with
  | .idle => .next s
  | .run o t => runOp o t
  | .refuse r => .refused r

/-- The state with the bytes of a Command as the host's next request and no operation under way (log 9, 10). -/
def loadCommandBytes (s : State) (bytes : List Byte) : State :=
  { s with run := { s.run with running := none, requests := .encoded bytes :: s.run.requests } }

end Sys2Proof.Machine
end

