-- ==== Sys2Proof/Machine/Step.lean ====
section
/-! DEFINITION. The machine's step, and the placing of one Command where the next step fetches it. -/

namespace Sys2Proof.Machine

/-- One step: one outward call or one internal buffer update of the operation at hand (R10, R11). -/
def step (s : State) : Host.Outcome State Fault Refusal := sequencerStep s

/-- `s` with a word of the opcode table as the host's next request, so that the very next step decodes and sends it
(log 9, 10). -/
def State.withFetchWord (s : State) (nbits w : Nat) : State := loadCommandBytes s (tableBytes nbits w)

end Sys2Proof.Machine
end

