-- ==== Sys2Proof/Machine/Flags.lean ====
section
/-! DEFINITION. Conditions. The block has no status flag, no condition code and no sticky error bit (rule R24): the only
condition an operation produces is its result, read here from the run record. The flag OPERANDS of DisplayOn and
DisplayControl (R62, R64) are placed by `flagBit` in Sys2Proof/Decode.lean. -/

namespace Sys2Proof.Machine

/-- The result of the operation that ended last, the only condition there is (R24). -/
def State.lastResult (s : State) : Option OpResult := s.run.results.getLast?

/-- The event records a failing call (R145). -/
def Event.failed : Event → Bool
  | .cmd _ (.fault _) | .data _ (.fault _) | .pin _ (.fault _) => true
  | _ => false

/-- The fault a failing event raised (R140): the value the environment gave, unchanged. -/
def Event.raised : Event → Option OpFault
  | .cmd _ (.fault t) | .data _ (.fault t) => some (.transport t)
  | .pin _ (.fault e) => some (.pin e)
  | _ => none

end Sys2Proof.Machine
end

