-- ==== Sys2Proof/Machine/Observe.lean ====
section
/-! DEFINITION. What the trace says, computed and never stored (rules R22, R31): the level last driven on the reset pin
(R155, R160), the value last sent for each downstream register (R26), the minimum of the sleeps (R177, R178), the bytes of
the data channel (R43), and what a call may have delivered (R145). These say what was SENT, not what the downstream
controller holds (R26, R29; log 29). -/

namespace Sys2Proof.Machine

/-- What is known of the reset line (R155, R101, R144). -/
inductive ResetLine where
  /-- No pin call has succeeded yet: "whatever the platform left" (R160; log 35). -/
  | undriven
  /-- The level last successfully driven; no call of the other level has failed since. -/
  | driven (level : Level)
  /-- A call that should have changed the level failed: "the line is in an unknown level" (R101). -/
  | unknown
deriving DecidableEq, Repr

/-- A pin call of this level that fails: the line stays at the level last successfully driven (R144), unless the call should
have changed it, which leaves it unknown (R101, steps 2 and 4; log 35). -/
def ResetLine.afterFailed (line : ResetLine) (level : Level) : ResetLine :=
  match line with
  | .driven l => if l = level then .driven l else .unknown
  | .undriven => .undriven
  | .unknown => .unknown

/-- What one event does to what is known of the line. -/
def ResetLine.after (line : ResetLine) : Event → ResetLine
  | .pin level .ok => .driven level
  | .pin level (.fault _) => line.afterFailed level
  | .cmd _ _ | .data _ _ | .wait _ => line

/-- The reset line after a trace. -/
def resetLine (trace : List Event) : ResetLine := trace.foldl ResetLine.after .undriven

/-- What one event does to the level last successfully driven: a failed call leaves it as it is (R144). -/
def lastDrivenAfter (last : Option Level) : Event → Option Level
  | .pin level .ok => some level
  | .pin _ (.fault _) | .cmd _ _ | .data _ _ | .wait _ => last

/-- "the last level successfully driven" on the reset line (R144), none before the first successful pin call. -/
def lastDriven (trace : List Event) : Option Level := trace.foldl lastDrivenAfter none

/-- The value last sent, and accepted by the transport, for each of the 13 downstream registers of R26; none if none was
sent. -/
structure Sent where
  ayAddress : Option Byte := none
  bias : Option Byte := none
  voltageClock : Option Byte := none
  powerControl : Option Byte := none
  displayOn : Option Bool := none
  startLine : Option Byte := none
  /-- shl, adc, eon, rev. -/
  displayControl : Option (Bool × Bool × Bool × Bool) := none
  /-- First and last band. -/
  ayWindow : Option (Byte × Byte) := none
  /-- First and last column. -/
  axWindow : Option (Byte × Byte) := none
  duty : Option Byte := none
  contrast : Option Byte := none
  axAddress : Option Byte := none
  booster : Option Byte := none
deriving DecidableEq, Repr

/-- One Command sent (R26: each register is reached by exactly one Command; SWReset reaches none). -/
def Sent.record (r : Sent) : Instr → Sent
  | .ayAddress a => { r with ayAddress := some a }
  | .bias b => { r with bias := some b }
  | .voltageClock c => { r with voltageClock := some c }
  | .powerControl p => { r with powerControl := some p }
  | .displayOn on => { r with displayOn := some on }
  | .startLine line => { r with startLine := some line }
  | .displayControl shl adc eon rev => { r with displayControl := some (shl, adc, eon, rev) }
  | .ayWindow first last => { r with ayWindow := some (first, last) }
  | .axWindow first last => { r with axWindow := some (first, last) }
  | .swReset => r
  | .duty d => { r with duty := some d }
  | .contrast c => { r with contrast := some c }
  | .axAddress a => { r with axAddress := some a }
  | .booster level => { r with booster := some level }

/-- What one event adds: a command-channel call that was accepted, read as a receiver reads it (R67). -/
def Sent.after (r : Sent) : Event → Sent
  | .cmd bytes .ok =>
    match decodeFrame bytes with
    | .ok i => r.record i
    | .error _ => r
  | .cmd _ (.fault _) | .data _ _ | .pin _ _ | .wait _ => r

/-- The values last sent in a trace. -/
def lastSent (trace : List Event) : Sent := trace.foldl Sent.after {}

/-- The sum of the sleeps of a trace in milliseconds, a lower bound on the time it took (R177, R178). -/
def waitTotal : List Event → Nat
  | [] => 0
  | .wait ms :: rest => ms + waitTotal rest
  | _ :: rest => waitTotal rest

/-- The data-channel bytes of a trace, in order (R43). -/
def dataBytes : List Event → List Byte
  | [] => []
  | .data bytes _ :: rest => bytes ++ dataBytes rest
  | _ :: rest => dataBytes rest

/-- The downstream controller may have received `got` from this event: all the bytes of an accepted call; none, some or
all of a failed one (R145, U11; log 25). -/
def Event.mayDeliver : Event → List Byte → Prop
  | .cmd bytes .ok, got | .data bytes .ok, got => got = bytes
  | .cmd bytes (.fault _), got | .data bytes (.fault _), got => got <+: bytes
  | .pin _ _, got | .wait _, got => got = []

end Sys2Proof.Machine
end

