-- ==== Sys2Proof/Machine/Relation.lean ====
section
/-! DEFINITION. The step as rules R10 and R31 have it: a function of the fixed parameters, the operation in progress, the
block's own state record and the environment's inputs, the answers among them. The host's interface steps `State` alone; the
two are the same step (log 7). -/

namespace Sys2Proof.Machine

/-- What the environment supplies to one step (R10, R31): the host's next invocation, if it has one, and the answers the
transport and the pin would give to a call. A step makes at most one call (R11), so one answer of each is enough. -/
structure Inputs where
  request : Option Request
  tx : Answer TransportFault
  pin : Answer PinFault
deriving DecidableEq, Repr

/-- What one step leads to: the block's state record, the operation then in progress, and what the step showed outside. -/
structure Progress where
  block : Block
  running : Option HostOp
  events : List Event
  results : List OpResult
deriving DecidableEq, Repr

/-- The inputs alone, with nothing before them. -/
def Inputs.run (i : Inputs) (running : Option HostOp) : Run :=
  { Run.idle with running := running, requests := i.request.toList, txAnswers := [i.tx], pinAnswers := [i.pin] }

/-- One step of the block (R10, R31): configuration and answers come in, events and results go out, and the state record is
`Block`. -/
def blockStep (c : Config) (running : Option HostOp) (b : Block) (i : Inputs) : Host.Outcome Progress Fault Refusal :=
  match step { toBlock := b, cfg := c, run := i.run running } with
  | .next t =>
    .next { block := t.toBlock, running := t.run.running, events := t.run.trace, results := t.run.results }
  | .fault r => .fault r
  | .refused r => .refused r

/-- What the environment supplies to the next step of `s`. -/
def State.inputs (s : State) : Inputs := { request := s.run.requests.head?, tx := s.nextTx, pin := s.nextPin }

/-- The event is a call of the transport. -/
def Event.ofTransport : Event → Bool
  | .cmd _ _ | .data _ _ => true
  | .pin _ _ | .wait _ => false

/-- The event is a call of the reset pin. -/
def Event.ofPin : Event → Bool
  | .pin _ _ => true
  | .cmd _ _ | .data _ _ | .wait _ => false

end Sys2Proof.Machine
end

