-- ==== Sys2Proof/Safety.lean ====
section
/-! DEFINITION. The terms claims are stated in: a sound state, a run of several steps, the environment's coming answers, the
effect of a whole operation, and the event sequences the spec writes out. -/

namespace Sys2Proof.Machine

/-! ### Runs and answers -/

/-- `n` steps, stopping at the first fault or refusal. -/
def steps : Nat → State → StepOutcome
  | 0, s => .next s
  | n + 1, s =>
    match step s with
    | .next t => steps n t
    | .fault r => .fault r
    | .refused r => .refused r

/-- The answer the transport will give to its `k`-th call from here (0 the next one), listed or free. -/
def State.txAnswer (s : State) (k : Nat) : Answer TransportFault :=
  (s.run.txAnswers[k]?).getD (Config.freeTxAnswer (s.run.txCalls + k))

/-- The answer the reset pin will give to its `k`-th call from here, listed or free. -/
def State.pinAnswer (s : State) (k : Nat) : Answer PinFault :=
  (s.run.pinAnswers[k]?).getD (Config.freePinAnswer (s.run.pinCalls + k))

/-! ### Sound states -/

/-- The number of outward calls of an operation (R23: reset 6, init 24, set_draw_area 4, flush ceil(N/CHUNK)); 0 for an
operation that makes none. -/
def HostOp.callCount (c : Config) : HostOp → Nat
  | .reset => 6
  | .init => 24
  | .setDrawArea _ _ _ _ => 4
  | .flush => (c.bytes + c.chunk - 1) / c.chunk
  | .send _ | .draw _ | .setDisplayOn _ => 1
  | .encode _ | .clear | .setPixel _ _ _ | .drawPixels _ => 0

/-- The `k`-th outward call of an operation, none past its last (R73, R101 to R105, R123). -/
def HostOp.callAt (c : Config) (k : Nat) : HostOp → Option Call
  | .send i => (sendCalls i)[k]?
  | .reset => resetCalls[k]?
  | .init => initCalls[k]?
  | .draw buffer => (drawCalls buffer)[k]?
  | .setDisplayOn on => (setDisplayOnCalls on)[k]?
  | .setDrawArea sx sy ex ey => (setDrawAreaCalls sx sy ex ey)[k]?
  | .flush => flushCalls c k
  | .encode _ | .clear | .setPixel _ _ _ | .drawPixels _ => none

/-- The operation changes the pixel buffer and makes no call (R47, R54). -/
def HostOp.drawsInBuffer : HostOp → Bool
  | .clear | .setPixel _ _ _ | .drawPixels _ => true
  | .encode _ | .send _ | .reset | .init | .draw _ | .setDisplayOn _ | .setDrawArea _ _ _ _ | .flush => false

/-- The running operation exists in the mode (R128) and the step index is a position inside it (R23). -/
def HostOp.underWay (c : Config) (k : Nat) (o : HostOp) : Bool :=
  o.availableIn c.mode && decide (k < max 1 (o.callCount c))

/-- A sound state: R5's constraints hold, the buffer is in canonical form with indices below N (R21), there is no buffer with
MODE = Basic (R33), and a running operation is under way (R23, R128). -/
abbrev State.sound (s : State) : Prop :=
  s.cfg.wf ∧ Memory.wf s.fb ∧ Memory.below s.cfg.bytes s.fb ∧ (s.cfg.mode = .basic → s.fb = []) ∧
  s.run.running.all (HostOp.underWay s.cfg s.stepIdx) = true

/-! ### The effect of a command-channel call and of a whole operation -/

/-- `s` after one transport call that was accepted and recorded as `e`: one answer taken, `step` one further, nothing else
changed (R23). -/
def State.afterAccepted (s : State) (e : Event) : State :=
  { s with
    stepIdx := s.stepIdx + 1
    run := { s.run with
      txAnswers := s.run.txAnswers.tail
      txCalls := s.run.txCalls + 1
      trace := s.run.trace ++ [e] } }

/-- `s` after one transport call that failed with `t`: one answer taken, the operation ended with `Err`, `step` where it was,
nothing else changed (R143 to R145). -/
def State.afterFailed (s : State) (e : Event) (t : TransportFault) : State :=
  { s with
    run := { s.run with
      running := none
      txAnswers := s.run.txAnswers.tail
      txCalls := s.run.txCalls + 1
      trace := s.run.trace ++ [e]
      results := s.run.results ++ [.err (.transport t)] } }

/-- Between operations the host's next request is `o`, and then `rest` (R158). -/
def State.invokes (s : State) (o : HostOp) (rest : List Request) : Prop :=
  s.run.running = none ∧ s.run.requests = .op o :: rest

/-- From `s` to `t` the operation at the head of the requests ran to its end: it made these events and returned `r`. -/
def State.ends (s t : State) (events : List Event) (r : OpResult) (rest : List Request) : Prop :=
  t.run.running = none ∧ t.run.requests = rest ∧ t.run.trace = s.run.trace ++ events ∧
  t.run.results = s.run.results ++ [r]

/-- From `s` to `t` exactly `n` transport calls and no pin call were answered, and neither the parameters nor the pixel
buffer changed. -/
def State.txOnly (s t : State) (n : Nat) : Prop :=
  t.cfg = s.cfg ∧ t.fb = s.fb ∧ t.run.txAnswers = s.run.txAnswers.drop n ∧ t.run.txCalls = s.run.txCalls + n ∧
  t.run.pinAnswers = s.run.pinAnswers ∧ t.run.pinCalls = s.run.pinCalls

/-- From `s` to `t` exactly `n` pin calls and no transport call were answered, and neither the parameters nor the pixel
buffer changed. -/
def State.pinOnly (s t : State) (n : Nat) : Prop :=
  t.cfg = s.cfg ∧ t.fb = s.fb ∧ t.run.pinAnswers = s.run.pinAnswers.drop n ∧ t.run.pinCalls = s.run.pinCalls + n ∧
  t.run.txAnswers = s.run.txAnswers ∧ t.run.txCalls = s.run.txCalls

/-- `s` after an operation that made no outward call and returned `r`, the pixel buffer being `m`. -/
def State.endedWith (s : State) (m : Memory) (r : OpResult) (rest : List Request) : State :=
  { s with
    fb := m
    stepIdx := 0
    run := { s.run with
      running := none
      requests := rest
      results := s.run.results ++ [r] } }

/-! ### Pixels -/

/-- Bit `bit` of buffer byte `i`. -/
def State.bufferBit (s : State) (i bit : Nat) : Bool := (s.fbByte i).getLsbD bit

/-- The pixel (x, y) is on (R40). -/
def State.pixelOn (s : State) (x y : Nat) : Bool := s.bufferBit (y / 8 * s.cfg.width + x) (y % 8)

/-- What the last of the events that name the pixel (x, y) says, none if no event names it (R127). -/
def lastNaming (x y : Nat) : List PixelEvent → Option Bool
  | [] => none
  | e :: rest =>
    match lastNaming x y rest with
    | some v => some v
    | none => if e.px = x ∧ e.py = y then some e.on else none

/-! ### Byte 0 -/

/-- The values byte 0 of a Command can have, in ascending order, each with the Command's total bytes: the table of R66. -/
def firstBytes : List (Byte × Nat) :=
  [ (0x01, 2), (0x30, 2), (0x31, 2), (0x33, 2), (0x3C, 1), (0x3D, 1), (0x40, 2),
    (0x60, 1), (0x61, 1), (0x62, 1), (0x63, 1), (0x64, 1), (0x65, 1), (0x66, 1), (0x67, 1),
    (0x68, 1), (0x69, 1), (0x6A, 1), (0x6B, 1), (0x6C, 1), (0x6D, 1), (0x6E, 1), (0x6F, 1),
    (0x74, 3), (0x75, 3), (0x76, 1), (0x90, 2), (0xB1, 2), (0xC0, 2),
    (0xFC, 1), (0xFD, 1), (0xFE, 1), (0xFF, 1) ]

/-! ### Event sequences of the spec -/

/-- The six events of a fault-free `reset` (R101). -/
def resetEvents : List Event :=
  [.pin .high .ok, .wait 1, .pin .low .ok, .wait 10, .pin .high .ok, .wait 20]

/-- The 24 events of a fault-free `init`, as the last column of R102's table writes them. -/
def initEvents : List Event :=
  [ .cmd [0x76] .ok, .wait 50, .cmd [0x3C] .ok, .cmd [0x90, 0x80] .ok, .cmd [0x30, 0x10] .ok, .cmd [0x31, 0x3F] .ok,
    .cmd [0x33, 0x20] .ok, .wait 100, .cmd [0x33, 0x2C] .ok, .wait 100, .cmd [0xFF] .ok, .cmd [0xFF] .ok,
    .cmd [0xFF] .ok, .wait 100, .cmd [0x33, 0x2F] .ok, .wait 200, .cmd [0x64] .ok, .cmd [0x74, 0x00, 0x0F] .ok,
    .cmd [0x75, 0x00, 0x7F] .ok, .cmd [0x40, 0x40] .ok, .cmd [0x01, 0x00] .ok, .cmd [0xC0, 0x00] .ok,
    .cmd [0xB1, 0x6E] .ok, .cmd [0x3D] .ok ]

/-- The steps of `init` that are sends, in order (R141: 0, 2 to 6, 8, 10 to 12, 14, 16 to 23). -/
def initSendSteps : List Nat := [0, 2, 3, 4, 5, 6, 8, 10, 11, 12, 14, 16, 17, 18, 19, 20, 21, 22, 23]

/-- The four events of a fault-free `set_draw_area`, as R105 writes the bytes. -/
def drawAreaEvents (sx sy ex : Byte) : List Event :=
  [ .cmd [0x74, (sx / 8) &&& 0x1F, (ex / 8) &&& 0x1F] .ok, .cmd [0x75, sx &&& 0x7F, ex &&& 0x7F] .ok,
    .cmd [0xC0, sy &&& 0x7F] .ok, .cmd [0x01, (sx / 8) &&& 0x1F] .ok ]

/-- The events of a fault-free `flush` (R123, R46): chunk `k` carries the buffer bytes from `k × CHUNK` on, CHUNK of them or
what is left. -/
def flushEvents (s : State) : List Event :=
  (List.range (HostOp.flush.callCount s.cfg)).map fun k =>
    .data ((List.range (min s.cfg.chunk (s.cfg.bytes - k * s.cfg.chunk))).map fun j => s.fbByte (k * s.cfg.chunk + j)) .ok

/-- A transport event as a failing call records it. -/
def Event.failing (t : TransportFault) : Event → Event
  | .cmd bytes _ => .cmd bytes (.fault t)
  | .data bytes _ => .data bytes (.fault t)
  | .pin level answer => .pin level answer
  | .wait ms => .wait ms

/-- What a sequence that fails at its step `n` leaves in the trace: the events before, then the failing call (R145). -/
def failedAt (events : List Event) (n : Nat) (t : TransportFault) : List Event :=
  (events.take (n + 1)).modify n (Event.failing t)

/-! ### The past -/

/-- `s` with another trace and other results, as if other operations had come before. -/
def State.withPast (s : State) (trace : List Event) (results : List OpResult) : State :=
  { s with run := { s.run with trace := trace, results := results } }

end Sys2Proof.Machine
end

