-- ==== Sys2Proof/Certificates/Slice0/Obligations.lean ====
section
/-! DEFINITION. The statements for the provers. Each docstring names the rules a statement formalises, and the log entry where
a clause rests on a decision of the spec or a choice of the model. -/

open Sys2Proof Sys2Proof.Machine

/-! ### Encoding -/

/-- R80 to R83, R85, R90 to R92: the two bytes of each Command of format P1, for every operand. -/
def Obligations.EncodingOfOneParameterCommands : Prop :=
  ∀ v : Byte,
    encode (.ayAddress v) = [0x01, v &&& 0x1F] ∧ encode (.bias v) = [0x30, v &&& 0x3F] ∧
    encode (.voltageClock v) = [0x31, v &&& 0x3F] ∧ encode (.powerControl v) = [0x33, v] ∧
    encode (.startLine v) = [0x40, v] ∧ encode (.duty v) = [0x90, v] ∧ encode (.contrast v) = [0xB1, v] ∧
    encode (.axAddress v) = [0xC0, v &&& 0x7F]

/-- R84, R86, R93: the one byte of each Command of format E1; every flag and the level stand where R62 puts them, and the
other bits are the fixed ones. -/
def Obligations.EncodingOfEmbeddedFieldCommands : Prop :=
  (encode (.displayOn false) = [0x3C] ∧ encode (.displayOn true) = [0x3D]) ∧
  (∀ shl adc eon rev : Bool, ∃ b : Byte, encode (.displayControl shl adc eon rev) = [b] ∧
    b.getLsbD 3 = shl ∧ b.getLsbD 2 = adc ∧ b.getLsbD 1 = eon ∧ b.getLsbD 0 = rev ∧ b &&& 0xF0 = 0x60) ∧
  (∀ level : Byte, encode (.booster level) = [0xFC ||| (level &&& 0x03)])

/-- R87 to R89: the bytes of the two windows, each operand masked on its own and never compared, and of SWReset. -/
def Obligations.EncodingOfWindowsAndReset : Prop :=
  (∀ first last : Byte, encode (.ayWindow first last) = [0x74, first &&& 0x1F, last &&& 0x1F] ∧
    encode (.axWindow first last) = [0x75, first &&& 0x7F, last &&& 0x7F]) ∧
  encode .swReset = [0x76]

/-- R65: the byte count depends on the variant alone; 1, 2 or 3 as the rule lists them; and whatever the transport answers,
exactly that many bytes are handed to it, in one call (one call per Command is decision D9, log 14). -/
def Obligations.ByteCountDependsOnVariantOnly : Prop :=
  ∀ i : Instr,
    (encode i).length =
      (match i with
      | .displayOn _ | .displayControl _ _ _ _ | .swReset | .booster _ => 1
      | .ayAddress _ | .bias _ | .voltageClock _ | .powerControl _ | .startLine _ | .duty _ | .contrast _
      | .axAddress _ => 2
      | .ayWindow _ _ | .axWindow _ _ => 3) ∧
    ∀ s : State, ∃ t bytes a, exec i s = .next t ∧ t.run.trace = s.run.trace ++ [.cmd bytes a] ∧
      bytes.length = (encode i).length

/-- DECODE AND ENCODE AGREE for every well-formed Command, in each of the three ways bytes are read: at the head of a longer
sequence, as one call, and as the fixed array of `encode`. No bit of an encoding is dropped. (Decoding is the model's
receiver, R67: log 11, 13.) -/
def Obligations.DecodingAnEncodingGivesTheCommandBack : Prop :=
  ∀ (i : Instr) (rest : List Byte), i.wf = true →
    decode (encode i ++ rest) = .ok (i, rest) ∧ decodeFrame (encode i) = .ok i ∧
    decodeArray (encodeArray i) = .ok i

/-- The other direction: the bytes of a call decode to a Command only if they are that Command's encoding, and the Command is
well-formed; so no two Commands share a word and no reserved word falls through (R66, R68, R69; log 11). -/
def Obligations.OnlyEncodingsDecode : Prop :=
  ∀ (bytes : List Byte) (i : Instr), decodeFrame bytes = .ok i → i.wf = true ∧ encode i = bytes

/-- R75: a byte sequence is an encoding of a row's Command exactly when it has the row's length and its number, masked, is the
row's pattern. -/
def Obligations.TableRowsAdmitExactlyTheirEncodings : Prop :=
  (∀ (bytes : List Byte) (i : Instr), decodeFrame bytes = .ok i → (tableRow i).admits bytes = true) ∧
  (∀ (bytes : List Byte) (i : Instr), (tableRow i).admits bytes = true →
    ∃ j, decodeFrame bytes = .ok j ∧ tableRow j = tableRow i)

/-- R66, R68: the 33 values of R66's table can be byte 0 of a Command, each with the variant's total bytes, and the Command's own
encoding begins with it; each of the other 223 is refused as not a Command, whatever follows (refusing is decision D25, log
11). -/
def Obligations.ThirtyThreeFirstBytes : Prop :=
  (firstBytes.length = 33 ∧ (firstBytes.map Prod.fst).Nodup) ∧
  (∀ (b : Byte) (n : Nat), (b, n) ∈ firstBytes →
    ∃ i : Instr, decode [b, 0, 0] = .ok (i, [b, 0, 0].drop n) ∧ byteCount i = n ∧ (encode i).head? = some b) ∧
  (∀ (b : Byte) (rest : List Byte), b ∉ firstBytes.map Prod.fst → decode (b :: rest) = .error (.notACommand b))

/-- R63, R69: masking is silent and total. Whatever its operands, a Command is encoded as some well-formed Command is, and
that is the one a receiver reads. -/
def Obligations.MaskedOperandsEncodeAsWellFormedOnes : Prop :=
  ∀ i : Instr, ∃ j : Instr, j.wf = true ∧ encode j = encode i ∧ decodeFrame (encode i) = .ok j ∧
    (i.wf = true → j = i)

/-- Words of the spec (R80 to R93, V1) and what they decode to; and words that are no Command (R68, R69). -/
def Obligations.WordsOfTheSpecDecode : Prop :=
  decodeTableWord 16 0x010F = some (.ayAddress 0x0F) ∧ decodeTableWord 16 0x3010 = some (.bias 16) ∧
  decodeTableWord 8 0x3D = some (.displayOn true) ∧
  decodeTableWord 8 0x65 = some (.displayControl false true false true) ∧
  decodeTableWord 24 0x740F00 = some (.ayWindow 0x0F 0x00) ∧ decodeTableWord 24 0x75007F = some (.axWindow 0 0x7F) ∧
  decodeTableWord 8 0x76 = some .swReset ∧ decodeTableWord 8 0xFE = some (.booster 2) ∧
  decodeFrame [0x02, 0x00] = .error (.notACommand 0x02) ∧
  decodeFrame [0x01, 0x20] = .error (.neverSent 0x01 0x20) ∧
  decodeFrame [0x76, 0x00] = .error (.trailing [0x00]) ∧ decodeFrame [0x90] = .error (.truncated 0x90)

/-! ### Executing a Command -/

/-- Each Command of format P1, sent and accepted, is one call of exactly its two bytes; `step` goes one further and nothing
else of the state changes (R80 to R83, R85, R90 to R92, R95; one call per Command is decision D9, log 14). -/
def Obligations.OneParameterCommandsComplete : Prop :=
  ∀ (s : State) (v : Byte), s.nextTx = .ok →
    exec (.ayAddress v) s = .next (s.afterAccepted (.cmd [0x01, v &&& 0x1F] .ok)) ∧
    exec (.bias v) s = .next (s.afterAccepted (.cmd [0x30, v &&& 0x3F] .ok)) ∧
    exec (.voltageClock v) s = .next (s.afterAccepted (.cmd [0x31, v &&& 0x3F] .ok)) ∧
    exec (.powerControl v) s = .next (s.afterAccepted (.cmd [0x33, v] .ok)) ∧
    exec (.startLine v) s = .next (s.afterAccepted (.cmd [0x40, v] .ok)) ∧
    exec (.duty v) s = .next (s.afterAccepted (.cmd [0x90, v] .ok)) ∧
    exec (.contrast v) s = .next (s.afterAccepted (.cmd [0xB1, v] .ok)) ∧
    exec (.axAddress v) s = .next (s.afterAccepted (.cmd [0xC0, v &&& 0x7F] .ok))

/-- The same for the three Commands of format E1 (R84, R86, R93, R95; log 14). -/
def Obligations.EmbeddedFieldCommandsComplete : Prop :=
  ∀ s : State, s.nextTx = .ok →
    exec (.displayOn false) s = .next (s.afterAccepted (.cmd [0x3C] .ok)) ∧
    exec (.displayOn true) s = .next (s.afterAccepted (.cmd [0x3D] .ok)) ∧
    (∀ shl adc eon rev : Bool, exec (.displayControl shl adc eon rev) s = .next (s.afterAccepted (.cmd
      [0x60 ||| BitVec.ofNat 8 (8 * shl.toNat + 4 * adc.toNat + 2 * eon.toNat + rev.toNat)] .ok))) ∧
    (∀ level : Byte, exec (.booster level) s = .next (s.afterAccepted (.cmd [0xFC ||| (level &&& 0x03)] .ok)))

/-- The same for the two windows and SWReset (R87 to R89, R95; log 14). In particular SWReset leaves the pixel buffer. -/
def Obligations.WindowAndResetCommandsComplete : Prop :=
  ∀ s : State, s.nextTx = .ok →
    (∀ first last : Byte,
      exec (.ayWindow first last) s = .next (s.afterAccepted (.cmd [0x74, first &&& 0x1F, last &&& 0x1F] .ok)) ∧
      exec (.axWindow first last) s = .next (s.afterAccepted (.cmd [0x75, first &&& 0x7F, last &&& 0x7F] .ok))) ∧
    exec .swReset s = .next (s.afterAccepted (.cmd [0x76] .ok))

/-- A Command whose call the transport fails takes the fault (R95, R143 to R145): the operation ends with the transport's own
value, `step` stays, the bytes were handed over once (log 14), nothing else changes. -/
def Obligations.FailedCommandTakesTheFault : Prop :=
  ∀ (i : Instr) (s : State) (t : TransportFault), s.nextTx = .fault t →
    exec i s = .next (s.afterFailed (.cmd (encode i) (.fault t)) t)

/-- A STEP RUNS THE DECODED COMMAND. Given as bytes or as a value, a Command the host sends begins at step 0 and is executed by
`exec`; when the call was accepted the operation ends with `Ok` in the same step. Inside `init`, `set_draw_area` and
`set_display_on` the step at a send, the first one included, is `exec` of that Command, then the same check for the end (R73,
R95, R102, R105; log 9, 27). -/
def Obligations.StepRunsTheCommand : Prop :=
  (∀ (s : State) (bytes : List Byte) (rest : List Request) (i : Instr), s.run.running = none →
    s.run.requests = .encoded bytes :: rest → decodeArray bytes = .ok i →
    step s = mapNext (exec i (s.begin (.send i) rest)) (endIfDone fun k => [Call.send i][k]?)) ∧
  (∀ (s : State) (rest : List Request) (i : Instr), s.invokes (.send i) rest →
    step s = mapNext (exec i (s.begin (.send i) rest)) (endIfDone fun k => [Call.send i][k]?)) ∧
  (∀ (s : State) (rest : List Request), s.invokes .init rest →
    step s = mapNext (exec .swReset (s.begin .init rest)) (endIfDone fun k => initCalls[k]?)) ∧
  (∀ (s : State) (i : Instr), s.run.running = some .init → initCalls[s.stepIdx]? = some (.send i) →
    step s = mapNext (exec i s) (endIfDone fun k => initCalls[k]?)) ∧
  (∀ (s : State) (sx sy ex ey : Byte) (rest : List Request), s.invokes (.setDrawArea sx sy ex ey) rest →
    step s = mapNext (exec (.ayWindow (sx / 8) (ex / 8)) (s.begin (.setDrawArea sx sy ex ey) rest))
      (endIfDone fun k => (setDrawAreaCalls sx sy ex ey)[k]?)) ∧
  (∀ (s : State) (sx sy ex ey : Byte) (i : Instr), s.run.running = some (.setDrawArea sx sy ex ey) →
    (setDrawAreaCalls sx sy ex ey)[s.stepIdx]? = some (.send i) →
    step s = mapNext (exec i s) (endIfDone fun k => (setDrawAreaCalls sx sy ex ey)[k]?)) ∧
  (∀ (s : State) (rest : List Request) (on : Bool), s.invokes (.setDisplayOn on) rest →
    step s = mapNext (exec (.displayOn on) (s.begin (.setDisplayOn on) rest))
      (endIfDone fun k => [Call.send (.displayOn on)][k]?))

/-! ### The Command Encoder's operations -/

/-- `encode` is pure and total: one step, no event, no answer taken; the result is the bytes padded with zeros to three, and
their number (R94; the padding is decision D8, log 13). That it takes one step is the model's choice (log 27), and so is the step
index 0 after it (log 5). -/
def Obligations.EncodeOperationIsPure : Prop :=
  ∀ (s : State) (c : Instr) (rest : List Request), s.invokes (.encode c) rest →
    step s = .next (s.endedWith s.fb
      (.encoded (encode c ++ List.replicate (3 - byteCount c) 0) (byteCount c)) rest)

/-- `send` makes exactly one command-channel call with exactly the Command's bytes and returns `Ok`, or `Err` with the
transport's value when that call fails (R95; decision D9, log 14). The step index after the operation, 1 or 0, is R23's last one,
kept by the model's choice (log 5). -/
def Obligations.SendMakesOneCommandCall : Prop :=
  ∀ (s : State) (c : Instr) (rest : List Request), s.invokes (.send c) rest →
    (s.txAnswer 0 = .ok →
      ∃ t, step s = .next t ∧ s.ends t [.cmd (encode c) .ok] .ok rest ∧ s.txOnly t 1 ∧ t.stepIdx = 1) ∧
    (∀ v, s.txAnswer 0 = .fault v →
      ∃ t, step s = .next t ∧ s.ends t [.cmd (encode c) (.fault v)] (.err (.transport v)) rest ∧ s.txOnly t 1 ∧
        t.stepIdx = 0)

/-- Every command-channel call any step makes carries exactly the encoding of one Command, never a trailing byte (R65,
R169). That a call holds one whole Command is decision D9 (log 14). -/
def Obligations.EveryCommandCallIsOneEncoding : Prop :=
  ∀ (s t : State) (bytes : List Byte) (a : Answer TransportFault), step s = .next t →
    t.run.trace = s.run.trace ++ [.cmd bytes a] → ∃ i : Instr, encode i = bytes ∧ bytes.length = byteCount i

/-! ### The Controller Handle's operations -/

/-- `reset` (R101): the pin goes high, low, high with waits of 1, 10 and 20 ms and the line is left high; a failing pin call at
step 0, 2 or 4 ends it there with the pin's own value, no later pin call and no later sleep, the line being at an unknown level
after one at step 2 or 4 (log 35); no transport call is ever made; the buffer stays. The step index after the operation is R23's
last one, kept by the model's choice (log 5). -/
def Obligations.ResetPulsesThePin : Prop :=
  ∀ (s : State) (rest : List Request), s.invokes .reset rest →
    ((∀ k < 3, s.pinAnswer k = .ok) →
      ∃ t, steps 6 s = .next t ∧ s.pinOnly t 3 ∧ t.stepIdx = 6 ∧ resetLine t.run.trace = .driven .high ∧
        s.ends t [.pin .high .ok, .wait 1, .pin .low .ok, .wait 10, .pin .high .ok, .wait 20] .ok rest) ∧
    (∀ e, s.pinAnswer 0 = .fault e →
      ∃ t, steps 1 s = .next t ∧ s.pinOnly t 1 ∧ t.stepIdx = 0 ∧
        s.ends t [.pin .high (.fault e)] (.err (.pin e)) rest) ∧
    (∀ e, s.pinAnswer 0 = .ok → s.pinAnswer 1 = .fault e →
      ∃ t, steps 3 s = .next t ∧ s.pinOnly t 2 ∧ t.stepIdx = 2 ∧ resetLine t.run.trace = .unknown ∧
        s.ends t [.pin .high .ok, .wait 1, .pin .low (.fault e)] (.err (.pin e)) rest) ∧
    (∀ e, s.pinAnswer 0 = .ok → s.pinAnswer 1 = .ok → s.pinAnswer 2 = .fault e →
      ∃ t, steps 5 s = .next t ∧ s.pinOnly t 3 ∧ t.stepIdx = 4 ∧ resetLine t.run.trace = .unknown ∧
        s.ends t [.pin .high .ok, .wait 1, .pin .low .ok, .wait 10, .pin .high (.fault e)] (.err (.pin e)) rest)

/-- R161: after a fault-free `reset` the buffer is as before, the reset line is high, and the trace is longer by the six
events. -/
def Obligations.ResetLeavesTheLineHigh : Prop :=
  ∀ (s : State) (rest : List Request), s.invokes .reset rest → (∀ k < 3, s.pinAnswer k = .ok) →
    ∃ t, steps 6 s = .next t ∧ t.fb = s.fb ∧ t.cfg = s.cfg ∧ resetLine t.run.trace = .driven .high ∧
      t.run.trace = s.run.trace ++ resetEvents

/-- A fault-free `init` makes exactly the 24 events of R102's table, in order and byte for byte, in 24 steps, from any
state, and returns `Ok`; nothing of the block changes. (The byte columns are derived and the three Booster sends are decision
D14: log 14, 19; the step index after the operation: log 5.) -/
def Obligations.InitEmitsTheTwentyFourEvents : Prop :=
  ∀ (s : State) (rest : List Request), s.invokes .init rest → (∀ k < 19, s.txAnswer k = .ok) →
    ∃ t, steps 24 s = .next t ∧ s.ends t initEvents .ok rest ∧ s.txOnly t 19 ∧ t.stepIdx = 24

/-- `init` with its `j`-th send failing (R102, V4): it stops at that step, with the events before it and the failing call, the
transport's value as its result, and the waits after it not made (log 14, 19; the step index after the operation: log 5). -/
def Obligations.InitStopsAtTheFirstFailingSend : Prop :=
  ∀ (s : State) (rest : List Request) (j : Nat) (n : Nat) (v : TransportFault), s.invokes .init rest →
    initSendSteps[j]? = some n → (∀ k < j, s.txAnswer k = .ok) → s.txAnswer j = .fault v →
    ∃ t, steps (n + 1) s = .next t ∧ s.ends t (failedAt initEvents n v) (.err (.transport v)) rest ∧
      s.txOnly t (j + 1) ∧ t.stepIdx = n

/-- R26, R162: after a fault-free `init`, whatever was sent before, the last value sent for each of the 13 downstream registers
is the one of R26's column, as a receiver reads the trace (R67; log 29; the sends: log 14, 19). -/
def Obligations.InitLeavesTheListedValuesSent : Prop :=
  ∀ (s : State) (rest : List Request), s.invokes .init rest → (∀ k < 19, s.txAnswer k = .ok) →
    ∃ t, steps 24 s = .next t ∧ lastSent t.run.trace =
      { ayAddress := some 0, bias := some 16, voltageClock := some 0x3F, powerControl := some 0x2F,
        displayOn := some true, startLine := some 64, displayControl := some (false, true, false, false),
        ayWindow := some (0, 15), axWindow := some (0, 127), duty := some 128, contrast := some 110,
        axAddress := some 0, booster := some 3 }

/-- R177, R178: the sleeps a fault-free `reset` requests add up to 31 ms, those of a fault-free `init` to 550 ms (lower bounds of
the time they take: log 24; the three Booster sends and their one wait: log 19). -/
def Obligations.SleepsAddUp : Prop :=
  (∀ (s : State) (rest : List Request), s.invokes .reset rest → (∀ k < 3, s.pinAnswer k = .ok) →
    ∃ t, steps 6 s = .next t ∧ waitTotal t.run.trace = waitTotal s.run.trace + 31) ∧
  (∀ (s : State) (rest : List Request), s.invokes .init rest → (∀ k < 19, s.txAnswer k = .ok) →
    ∃ t, steps 24 s = .next t ∧ waitTotal t.run.trace = waitTotal s.run.trace + 550)

/-- `draw` makes exactly one data-channel call with the caller's bytes, order and count unchanged, whatever the length (R103;
length 0 included by decision D15, log 20), and passes a failure on. The step index after the operation, 1 or 0, is R23's last
one, kept by the model's choice (log 5). -/
def Obligations.DrawForwardsTheSlice : Prop :=
  ∀ (s : State) (buffer : List Byte) (rest : List Request), s.invokes (.draw buffer) rest →
    (s.txAnswer 0 = .ok →
      ∃ t, step s = .next t ∧ s.ends t [.data buffer .ok] .ok rest ∧ s.txOnly t 1 ∧ t.stepIdx = 1) ∧
    (∀ v, s.txAnswer 0 = .fault v →
      ∃ t, step s = .next t ∧ s.ends t [.data buffer (.fault v)] (.err (.transport v)) rest ∧ s.txOnly t 1 ∧
        t.stepIdx = 0)

/-- `set_display_on` sends the one byte 0x3C or 0x3D and returns `Ok`, or `Err` with the transport's value when that call fails
(R104; that it is DisplayOn is decision D27, log 31; one call per Command is D9, log 14; the step index after the operation: log
5). -/
def Obligations.SetDisplayOnSendsOneByte : Prop :=
  ∀ (s : State) (on : Bool) (rest : List Request), s.invokes (.setDisplayOn on) rest →
    (s.txAnswer 0 = .ok →
      ∃ t, step s = .next t ∧ s.ends t [.cmd [if on then 0x3D else 0x3C] .ok] .ok rest ∧ s.txOnly t 1 ∧
        t.stepIdx = 1) ∧
    (∀ v, s.txAnswer 0 = .fault v →
      ∃ t, step s = .next t ∧ s.ends t [.cmd [if on then 0x3D else 0x3C] (.fault v)] (.err (.transport v)) rest ∧
        s.txOnly t 1 ∧ t.stepIdx = 0)

/-- `set_draw_area` sends the four Commands of R105 with its literal mapping (conflict C1; order D28, widths D6: log 18); the
operand `ey` changes nothing; the first failing send ends it, the later ones are not made (one call per Command: log 14; the step
index after the operation: log 5). -/
def Obligations.SetDrawAreaSendsFourCommands : Prop :=
  ∀ (s : State) (sx sy ex ey : Byte) (rest : List Request), s.invokes (.setDrawArea sx sy ex ey) rest →
    ((∀ k < 4, s.txAnswer k = .ok) →
      ∃ t, steps 4 s = .next t ∧ s.ends t (drawAreaEvents sx sy ex) .ok rest ∧ s.txOnly t 4 ∧ t.stepIdx = 4) ∧
    (∀ (j : Nat) (v : TransportFault), j < 4 → (∀ k < j, s.txAnswer k = .ok) → s.txAnswer j = .fault v →
      ∃ t, steps (j + 1) s = .next t ∧ s.ends t (failedAt (drawAreaEvents sx sy ex) j v) (.err (.transport v)) rest ∧
        s.txOnly t (j + 1) ∧ t.stepIdx = j)

/-! ### The Buffered Drawing Mode's operations -/

/-- R121: after `clear`, in one step and without an event, every byte of the buffer reads 0; the result is `Ok` and nothing
else changes, whatever the buffer held. That it is one step is the model's choice (log 27), and so is the step index 0 after it
(log 5). -/
def Obligations.ClearZeroesTheBuffer : Prop :=
  ∀ (s : State) (rest : List Request), s.cfg.mode = .buffered → s.invokes .clear rest →
    ∃ m, step s = .next (s.endedWith m .ok rest) ∧
      ∀ i < s.cfg.bytes, (s.endedWith m .ok rest).fbRead i = some 0

/-- R121's comment: `clear` is the same as `MemWrite(0, N, [0x00] repeated N times)`, the byte-by-byte writes (one step: log
27; the step index 0 after it: log 5). -/
def Obligations.ClearIsMemWriteOfZeros : Prop :=
  ∀ (s : State) (rest : List Request), s.sound → s.cfg.mode = .buffered → s.invokes .clear rest →
    ∃ t, (s.endedWith s.fb .ok rest).memWrite 0 (List.replicate s.cfg.bytes 0) = some t ∧ step s = .next t

/-- R40: every pixel of the display has one bit of the buffer, no two pixels share one, and every bit of the N bytes is some
pixel's (the bijection is derived; bit weights by D3: log 16). -/
def Obligations.PixelMapIsABijection : Prop :=
  ∀ c : Config, c.wf →
    (∀ x y, x < c.width → y < c.height → pixelIndex c x y < c.bytes ∧ pixelBit y < 8) ∧
    (∀ x y x' y', x < c.width → y < c.height → x' < c.width → y' < c.height →
      pixelIndex c x y = pixelIndex c x' y' → pixelBit y = pixelBit y' → x = x' ∧ y = y') ∧
    (∀ i bit, i < c.bytes → bit < 8 →
      ∃ x y, x < c.width ∧ y < c.height ∧ pixelIndex c x y = i ∧ pixelBit y = bit)

/-- `set_pixel` inside the display (R122, R47): the pixel's bit takes the value, every other bit of the buffer keeps its
value, no event, `Ok`, nothing else changes (operand types D6, D23: log 17; one step: log 27; the step index 0 after it: log 5). -/
def Obligations.SetPixelChangesOneBit : Prop :=
  ∀ (s : State) (x y : Nat) (value : Bool) (rest : List Request), s.cfg.wf → s.cfg.mode = .buffered →
    s.invokes (.setPixel x y value) rest → x < s.cfg.width → y < s.cfg.height →
    ∃ m, step s = .next (s.endedWith m .ok rest) ∧ (s.endedWith m .ok rest).pixelOn x y = value ∧
      ∀ i bit, bit < 8 → ¬(i = y / 8 * s.cfg.width + x ∧ bit = y % 8) →
        (s.endedWith m .ok rest).bufferBit i bit = s.bufferBit i bit

/-- `set_pixel` outside the display is a silent no-op, also where the index alone would lie inside the buffer (R51, R122 (a),
conflict C2: log 17; one step: log 27; the step index 0 after it: log 5). -/
def Obligations.SetPixelOutsideDoesNothing : Prop :=
  ∀ (s : State) (x y : Nat) (value : Bool) (rest : List Request), s.cfg.mode = .buffered →
    s.invokes (.setPixel x y value) rest → ¬(x < s.cfg.width ∧ y < s.cfg.height) →
    step s = .next (s.endedWith s.fb .ok rest)

/-- R49: `set_pixel(x, y, true)` then `set_pixel(x, y, false)` leaves the bit 0 and the rest as it was; the original bytes are
restored when the bit was 0 before (log 17; a step for each: log 27). -/
def Obligations.SetThenClearPixel : Prop :=
  ∀ (s : State) (x y : Nat) (rest : List Request), s.cfg.wf → s.cfg.mode = .buffered →
    s.invokes (.setPixel x y true) (.op (.setPixel x y false) :: rest) → x < s.cfg.width → y < s.cfg.height →
    ∃ t, steps 2 s = .next t ∧ t.run.trace = s.run.trace ∧ t.run.results = s.run.results ++ [.ok, .ok] ∧
      t.run.requests = rest ∧ t.pixelOn x y = false ∧
      (∀ i bit, bit < 8 → ¬(i = y / 8 * s.cfg.width + x ∧ bit = y % 8) → t.bufferBit i bit = s.bufferBit i bit) ∧
      (s.pixelOn x y = false → ∀ i, t.fbByte i = s.fbByte i)

/-- `flush` (R123, R46): in ceil(N/CHUNK) steps it makes that many data-channel calls and no other event; call k carries
the bytes from k × CHUNK on, CHUNK of them or what is left; together they are the N bytes of the buffer in order, none omitted
or duplicated, whatever CHUNK is; the buffer stays. A failing call ends it there, the later chunks unsent. (Ascending order is
D2, no command is D10: log 15; the step index after the operation: log 5.) -/
def Obligations.FlushSendsTheWholeBuffer : Prop :=
  ∀ (s : State) (rest : List Request), s.cfg.wf → s.cfg.mode = .buffered → s.invokes .flush rest →
    ((∀ k < HostOp.flush.callCount s.cfg, s.txAnswer k = .ok) →
      ∃ t, steps (HostOp.flush.callCount s.cfg) s = .next t ∧ s.ends t (flushEvents s) .ok rest ∧
        s.txOnly t (HostOp.flush.callCount s.cfg) ∧ t.stepIdx = HostOp.flush.callCount s.cfg) ∧
    dataBytes (flushEvents s) = (List.range s.cfg.bytes).map s.fbByte ∧
    (∀ (j : Nat) (v : TransportFault), j < HostOp.flush.callCount s.cfg → (∀ k < j, s.txAnswer k = .ok) →
      s.txAnswer j = .fault v →
      ∃ t, steps (j + 1) s = .next t ∧ s.ends t (failedAt (flushEvents s) j v) (.err (.transport v)) rest ∧
        s.txOnly t (j + 1) ∧ t.stepIdx = j)

/-- R125: two `flush` operations with nothing between them make the same data-channel calls with the same bytes (derived; also
for a buffer nothing has cleared: its unwritten bytes are free but fixed, log 4; the chunks: log 15). -/
def Obligations.FlushTwiceSendsTheSame : Prop :=
  ∀ (s : State) (rest : List Request), s.cfg.wf → s.cfg.mode = .buffered → s.invokes .flush (.op .flush :: rest) →
    (∀ k < 2 * HostOp.flush.callCount s.cfg, s.txAnswer k = .ok) →
    ∃ t, steps (2 * HostOp.flush.callCount s.cfg) s = .next t ∧
      t.run.trace = s.run.trace ++ (flushEvents s ++ flushEvents s) ∧
      t.run.results = s.run.results ++ [.ok, .ok] ∧ t.fb = s.fb

/-- R46: the step of `flush` at index k makes one data call whose bytes begin at buffer index k × CHUNK: CHUNK of them, or for the
last chunk the N − (ceil(N/CHUNK) − 1) × CHUNK that are left; never none, never more than CHUNK, never padding; with CHUNK ≥ N there
is one chunk of N bytes (ascending order, D2, and the shorter last chunk, conflict C4: log 15). -/
def Obligations.FlushStepSendsItsChunk : Prop :=
  ∀ (s t u : State), s.sound → fetch s = .run .flush u → step s = .next t →
    ∃ n a, t.run.trace = s.run.trace ++ [.data ((List.range n).map fun j => s.fbByte (u.stepIdx * s.cfg.chunk + j)) a] ∧
      n = (if u.stepIdx + 1 = HostOp.flush.callCount s.cfg then
        s.cfg.bytes - (HostOp.flush.callCount s.cfg - 1) * s.cfg.chunk else s.cfg.chunk) ∧
      1 ≤ n ∧ n ≤ s.cfg.chunk ∧ (s.cfg.bytes ≤ s.cfg.chunk → HostOp.flush.callCount s.cfg = 1 ∧ n = s.cfg.bytes)

/-- `draw_pixels` (R127): afterwards each pixel of the display is as the last event that names it says, or as before if none
does; events outside the box change nothing; no event of the trace, `Ok` (types, order and box origin are D16: log 21; one event a
step: log 21, 27; the step index 0 after it: log 5). -/
def Obligations.DrawPixelsLastEventWins : Prop :=
  ∀ (s : State) (events : List PixelEvent) (rest : List Request), s.cfg.wf → s.cfg.mode = .buffered →
    s.invokes (.drawPixels events) rest →
    ∃ m, steps (max 1 events.length) s = .next (s.endedWith m .ok rest) ∧
      ∀ x y, x < s.cfg.width → y < s.cfg.height →
        (s.endedWith m .ok rest).pixelOn x y = (lastNaming x y events).getD (s.pixelOn x y)

/-- R54: `clear`, `set_pixel`, `draw_pixels` make no outward call: no event, no answer taken. -/
def Obligations.BufferChangesAreInvisible : Prop :=
  ∀ (s t u : State) (o : HostOp), fetch s = .run o u → step s = .next t →
    (o = .clear ∨ (∃ x y v, o = .setPixel x y v) ∨ (∃ es, o = .drawPixels es)) →
    t.run.trace = s.run.trace ∧ t.run.txAnswers = s.run.txAnswers ∧ t.run.txCalls = s.run.txCalls ∧
    t.run.pinAnswers = s.run.pinAnswers ∧ t.run.pinCalls = s.run.pinCalls

/-- R21, R144, R163: no step of any other operation writes the buffer; so no fault, no `reset`, no `init`, no SWReset does. -/
def Obligations.OnlyBufferOperationsWriteTheBuffer : Prop :=
  ∀ (s t : State), step s = .next t → t.fb ≠ s.fb →
    ∃ o u, fetch s = .run o u ∧ t.run.trace = s.run.trace ∧
      (o = .clear ∨ (∃ x y v, o = .setPixel x y v) ∨ (∃ es, o = .drawPixels es))

/-- R128: with MODE = Basic the four buffer operations are refused when the host invokes them, and the seven others are not
(the refusal is decision D13, log 22). -/
def Obligations.BasicModeRefusesBufferOperations : Prop :=
  ∀ (s : State) (o : HostOp) (rest : List Request), s.cfg.mode = .basic → s.invokes o rest →
    (step s = .refused (.absentInBasic o) ↔
      (o = .clear ∨ (∃ x y v, o = .setPixel x y v) ∨ o = .flush ∨ (∃ es, o = .drawPixels es)))

/-! ### Faults -/

/-- R143, R144, R145: a step that makes a failing call ends the running operation at once with that fault's own value; the
step index stays at the failing call's position, the buffer, the parameters and the host's other requests stay; and a fault is
reported only so (the step index after the ended operation: log 5). -/
def Obligations.FailingCallEndsTheOperation : Prop :=
  ∀ (s t u : State) (o : HostOp), fetch s = .run o u → step s = .next t →
    (∀ (e : Event) (f : OpFault), t.run.trace = s.run.trace ++ [e] → e.raised = some f →
      t.run.running = none ∧ t.run.results = s.run.results ++ [.err f] ∧ t.stepIdx = u.stepIdx ∧ t.fb = s.fb ∧
      t.cfg = s.cfg ∧ t.run.requests = u.run.requests) ∧
    (∀ f : OpFault, t.run.results = s.run.results ++ [.err f] →
      ∃ e : Event, t.run.trace = s.run.trace ++ [e] ∧ e.raised = some f)

/-- R144: "The outward effects of the completed steps stay". A step whose call fails leaves the commands accepted so far sent, the
sleeps taken and the reset line's last level successfully driven; a failing pin call of the level the line is at
leaves it there (the line after a failing call of the other level is R101's: log 35). -/
def Obligations.FaultKeepsTheOutwardEffects : Prop :=
  ∀ (s t : State) (e : Event) (f : OpFault), step s = .next t → t.run.trace = s.run.trace ++ [e] → e.raised = some f →
    t.fb = s.fb ∧ lastSent t.run.trace = lastSent s.run.trace ∧ waitTotal t.run.trace = waitTotal s.run.trace ∧
    lastDriven t.run.trace = lastDriven s.run.trace ∧
    ((∀ v, f = .transport v → resetLine t.run.trace = resetLine s.run.trace) ∧
      ∀ level v, e = .pin level (.fault v) → resetLine s.run.trace = .driven level →
        resetLine t.run.trace = .driven level)

/-- R141: which operation can raise which fault, and at which step (derived from the operation rules). -/
def Obligations.FaultKindsPerOperation : Prop :=
  ∀ (s t u : State) (o : HostOp), fetch s = .run o u → step s = .next t →
    (∀ e, t.run.results = s.run.results ++ [.err (.pin e)] → o = .reset ∧ (u.stepIdx = 0 ∨ u.stepIdx = 2 ∨ u.stepIdx = 4)) ∧
    (∀ v, t.run.results = s.run.results ++ [.err (.transport v)] →
      (∃ c, o = .send c) ∨ (o = .init ∧ u.stepIdx ∈ initSendSteps) ∨ (∃ b, o = .draw b) ∨
      (∃ on, o = .setDisplayOn on) ∨ (∃ sx sy ex ey, o = .setDrawArea sx sy ex ey) ∨ o = .flush)

/-- R96, R106, R150: no operation behaves differently because of what was done before. With any other trace and results behind
it, a step makes the same events and results and the same changes. -/
def Obligations.ThePastChangesNothing : Prop :=
  ∀ (s t : State), step s = .next t →
    ∃ es rs, t.run.trace = s.run.trace ++ es ∧ t.run.results = s.run.results ++ rs ∧
      ∀ (trace : List Event) (results : List OpResult),
        step (s.withPast trace results) = .next (t.withPast (trace ++ es) (results ++ rs))

/-- R150, R151: once an operation has ended, however it ended, the next one the host invokes begins at step index 0. -/
def Obligations.NextOperationStartsAtZero : Prop :=
  ∀ (s : State) (o : HostOp) (rest : List Request), s.invokes o rest → o.availableIn s.cfg.mode = true →
    ∃ u, fetch s = .run o u ∧ u.stepIdx = 0 ∧ u.fb = s.fb ∧ u.cfg = s.cfg ∧ u.run.running = some o ∧
      u.run.requests = rest ∧ u.run.trace = s.run.trace ∧ u.run.results = s.run.results

/-- R145, U11: of an accepted call all bytes arrive; of a failed one none, some leading ones or all may have (decision D11, the
model's reading of "some": log 25). -/
def Obligations.FailedCallMayDeliverAnyLeadingPart : Prop :=
  ∀ (sent got : List Byte) (v : TransportFault),
    ((Event.cmd sent .ok).mayDeliver got ↔ got = sent) ∧ ((Event.data sent .ok).mayDeliver got ↔ got = sent) ∧
    (Event.cmd sent (.fault v)).mayDeliver [] ∧ (Event.cmd sent (.fault v)).mayDeliver sent ∧
    (Event.data sent (.fault v)).mayDeliver [] ∧ (Event.data sent (.fault v)).mayDeliver sent ∧
    (∀ n, (Event.cmd sent (.fault v)).mayDeliver (sent.take n)) ∧
    (∀ n, (Event.data sent (.fault v)).mayDeliver (sent.take n))

/-! ### The whole machine -/

/-- R10, R31: the step is a function of the parameters, the operation in progress, the block's state record and the environment's
inputs. Whatever else `State` holds, `step` is `blockStep` with the host's next request and the next answers as inputs: it takes
the request if none was in progress, takes one answer for each call it makes, and appends its events and results (log 7). -/
def Obligations.StepIsTheBlockStepWithItsInputs : Prop :=
  ∀ s : State,
    match step s with
    | .next t => ∃ es rs,
      blockStep s.cfg s.run.running s.toBlock s.inputs =
        .next { block := t.toBlock, running := t.run.running, events := es, results := rs } ∧
      t.cfg = s.cfg ∧ t.run.trace = s.run.trace ++ es ∧ t.run.results = s.run.results ++ rs ∧
      t.run.requests = (match s.run.running with
        | none => s.run.requests.tail
        | some _ => s.run.requests) ∧
      t.run.txAnswers = s.run.txAnswers.drop (es.countP Event.ofTransport) ∧
      t.run.txCalls = s.run.txCalls + es.countP Event.ofTransport ∧
      t.run.pinAnswers = s.run.pinAnswers.drop (es.countP Event.ofPin) ∧
      t.run.pinCalls = s.run.pinCalls + es.countP Event.ofPin
    | .fault r => blockStep s.cfg s.run.running s.toBlock s.inputs = .fault r
    | .refused r => blockStep s.cfg s.run.running s.toBlock s.inputs = .refused r

/-- R160: with no operation running and none asked for, the block does nothing; that a step then answers the same state is the
model's choice (log 28). -/
def Obligations.IdleStepDoesNothing : Prop :=
  ∀ s : State, s.run.running = none → s.run.requests = [] → step s = .next s

/-- R32, R160: at instantiation the trace is empty and no operation is running; each of the 2048 buffer bytes reads as a free
value, and nothing has been written. The parameters are those of R5 (CHUNK open, at least 1: log 2; MODE: log 3; step 0: log 5;
free bytes: log 4). -/
def Obligations.ResetIsTheInstantiatedBlock : Prop :=
  State.reset.run.trace = [] ∧ State.reset.run.running = none ∧ State.reset.fb = [] ∧
  State.reset.cfg.width = 128 ∧ State.reset.cfg.height = 128 ∧ State.reset.cfg.bytes = 2048 ∧
  1 ≤ State.reset.cfg.chunk ∧ ∀ i < 2048, State.reset.fbRead i = some (Config.initialByte i)

/-- Reset is sound (tier 1 half of the invariant; it rests on the reset values of log 1 to 5). -/
def Obligations.ResetIsSound : Prop := State.reset.sound

/-- HEADLINE INVARIANT. Every step from every sound state leads to a sound state: R5's constraints hold and the parameters are as
they were, the buffer is canonical with indices below N (R21) and absent with MODE = Basic (R33), a running operation exists in
the mode and its step index is a position inside it (R23). -/
def Obligations.StepKeepsSoundness : Prop :=
  ∀ (s t : State), s.sound → step s = .next t → t.sound ∧ t.cfg = s.cfg

/-- From a sound state no step faults, and the only refusals are the two the spec gives: a buffer operation invoked with
MODE = Basic (R128), and bytes that are no Command (R68). -/
def Obligations.SoundStatesNeverFault : Prop :=
  ∀ s : State, s.sound →
    (∀ r, step s ≠ .fault r) ∧
    (∀ r, step s = .refused r →
      s.run.running = none ∧
      ((∃ o rest, s.run.requests = .op o :: rest ∧ s.cfg.mode = .basic ∧ o.availableIn .basic = false ∧
          r = .absentInBasic o) ∨
        (∃ bytes rest e, s.run.requests = .encoded bytes :: rest ∧ decodeArray bytes = .error e ∧
          r = .notACommand e)))

/-- Every operation ends (R159, R107: "runs to completion or to first hardware-reported fault"): invoked in a sound
state in a mode that has it, it returns after at most as many steps as it has calls (or events, or 1), with exactly one result.
(Every call is assumed to return: log 8; what a step is: log 27.) -/
def Obligations.EveryOperationEnds : Prop :=
  ∀ (s : State) (o : HostOp) (rest : List Request), s.sound → s.invokes o rest → o.availableIn s.cfg.mode = true →
    ∃ n t r, 1 ≤ n ∧
      n ≤ max (max 1 (o.callCount s.cfg)) (match o with | .drawPixels events => events.length | _ => 0) ∧
      steps n s = .next t ∧ t.run.running = none ∧ t.run.requests = rest ∧ t.run.results = s.run.results ++ [r]

/-- R11, R52: one step makes at most one event and ends at most one operation; what is in the trace and the results stays (log 27). -/
def Obligations.StepMakesAtMostOneEvent : Prop :=
  ∀ (s t : State), step s = .next t →
    ∃ es rs, t.run.trace = s.run.trace ++ es ∧ es.length ≤ 1 ∧ t.run.results = s.run.results ++ rs ∧ rs.length ≤ 1

/-- R23: the step index advances by exactly 1 when a call of a running operation succeeds, and an operation that makes calls
returns `Ok` exactly when the index reaches their number (the step index after the operation: log 5; steps: log 27). -/
def Obligations.StepIndexCountsCalls : Prop :=
  ∀ (s t u : State) (o : HostOp), s.sound → fetch s = .run o u → step s = .next t → 0 < o.callCount s.cfg →
    (∀ f, t.run.results ≠ s.run.results ++ [.err f]) →
    t.stepIdx = u.stepIdx + 1 ∧ (t.run.results = s.run.results ++ [.ok] ↔ t.stepIdx = o.callCount s.cfg) ∧
    (t.run.running = none ↔ t.stepIdx = o.callCount s.cfg)
end

