-- ==== Sys2Proof/Laws/State.lean ====
section
/-! SUPPORT. What each update of the state does to each field, one lemma per field per update, so that no proof unfolds a
record update. -/

namespace Sys2Proof.Machine.State

variable (s : State)

/-! ### `emit` appends an event -/

@[simp] theorem emit_toBlock (e : Event) : (s.emit e).toBlock = s.toBlock := rfl
@[simp] theorem emit_cfg (e : Event) : (s.emit e).cfg = s.cfg := rfl
@[simp] theorem emit_fb (e : Event) : (s.emit e).fb = s.fb := rfl
@[simp] theorem emit_stepIdx (e : Event) : (s.emit e).stepIdx = s.stepIdx := rfl
@[simp] theorem emit_running (e : Event) : (s.emit e).run.running = s.run.running := rfl
@[simp] theorem emit_requests (e : Event) : (s.emit e).run.requests = s.run.requests := rfl
@[simp] theorem emit_txAnswers (e : Event) : (s.emit e).run.txAnswers = s.run.txAnswers := rfl
@[simp] theorem emit_pinAnswers (e : Event) : (s.emit e).run.pinAnswers = s.run.pinAnswers := rfl
@[simp] theorem emit_txCalls (e : Event) : (s.emit e).run.txCalls = s.run.txCalls := rfl
@[simp] theorem emit_pinCalls (e : Event) : (s.emit e).run.pinCalls = s.run.pinCalls := rfl
@[simp] theorem emit_trace (e : Event) : (s.emit e).run.trace = s.run.trace ++ [e] := rfl
@[simp] theorem emit_results (e : Event) : (s.emit e).run.results = s.run.results := rfl

/-! ### `takeTx` consumes a transport answer -/

@[simp] theorem takeTx_toBlock : (s.takeTx).toBlock = s.toBlock := rfl
@[simp] theorem takeTx_cfg : (s.takeTx).cfg = s.cfg := rfl
@[simp] theorem takeTx_fb : (s.takeTx).fb = s.fb := rfl
@[simp] theorem takeTx_stepIdx : (s.takeTx).stepIdx = s.stepIdx := rfl
@[simp] theorem takeTx_running : (s.takeTx).run.running = s.run.running := rfl
@[simp] theorem takeTx_requests : (s.takeTx).run.requests = s.run.requests := rfl
@[simp] theorem takeTx_txAnswers : (s.takeTx).run.txAnswers = s.run.txAnswers.tail := rfl
@[simp] theorem takeTx_pinAnswers : (s.takeTx).run.pinAnswers = s.run.pinAnswers := rfl
@[simp] theorem takeTx_txCalls : (s.takeTx).run.txCalls = s.run.txCalls + 1 := rfl
@[simp] theorem takeTx_pinCalls : (s.takeTx).run.pinCalls = s.run.pinCalls := rfl
@[simp] theorem takeTx_trace : (s.takeTx).run.trace = s.run.trace := rfl
@[simp] theorem takeTx_results : (s.takeTx).run.results = s.run.results := rfl

/-! ### `takePin` consumes a pin answer -/

@[simp] theorem takePin_toBlock : (s.takePin).toBlock = s.toBlock := rfl
@[simp] theorem takePin_cfg : (s.takePin).cfg = s.cfg := rfl
@[simp] theorem takePin_fb : (s.takePin).fb = s.fb := rfl
@[simp] theorem takePin_stepIdx : (s.takePin).stepIdx = s.stepIdx := rfl
@[simp] theorem takePin_running : (s.takePin).run.running = s.run.running := rfl
@[simp] theorem takePin_requests : (s.takePin).run.requests = s.run.requests := rfl
@[simp] theorem takePin_txAnswers : (s.takePin).run.txAnswers = s.run.txAnswers := rfl
@[simp] theorem takePin_pinAnswers : (s.takePin).run.pinAnswers = s.run.pinAnswers.tail := rfl
@[simp] theorem takePin_txCalls : (s.takePin).run.txCalls = s.run.txCalls := rfl
@[simp] theorem takePin_pinCalls : (s.takePin).run.pinCalls = s.run.pinCalls + 1 := rfl
@[simp] theorem takePin_trace : (s.takePin).run.trace = s.run.trace := rfl
@[simp] theorem takePin_results : (s.takePin).run.results = s.run.results := rfl

/-! ### `advance` moves the step index -/

@[simp] theorem advance_cfg : (s.advance).cfg = s.cfg := rfl
@[simp] theorem advance_fb : (s.advance).fb = s.fb := rfl
@[simp] theorem advance_stepIdx : (s.advance).stepIdx = s.stepIdx + 1 := rfl
@[simp] theorem advance_running : (s.advance).run.running = s.run.running := rfl
@[simp] theorem advance_requests : (s.advance).run.requests = s.run.requests := rfl
@[simp] theorem advance_txAnswers : (s.advance).run.txAnswers = s.run.txAnswers := rfl
@[simp] theorem advance_pinAnswers : (s.advance).run.pinAnswers = s.run.pinAnswers := rfl
@[simp] theorem advance_txCalls : (s.advance).run.txCalls = s.run.txCalls := rfl
@[simp] theorem advance_pinCalls : (s.advance).run.pinCalls = s.run.pinCalls := rfl
@[simp] theorem advance_trace : (s.advance).run.trace = s.run.trace := rfl
@[simp] theorem advance_results : (s.advance).run.results = s.run.results := rfl

/-! ### `withRunning` replaces the running operation -/

@[simp] theorem withRunning_toBlock (o : HostOp) : (s.withRunning o).toBlock = s.toBlock := rfl
@[simp] theorem withRunning_cfg (o : HostOp) : (s.withRunning o).cfg = s.cfg := rfl
@[simp] theorem withRunning_fb (o : HostOp) : (s.withRunning o).fb = s.fb := rfl
@[simp] theorem withRunning_stepIdx (o : HostOp) : (s.withRunning o).stepIdx = s.stepIdx := rfl
@[simp] theorem withRunning_running (o : HostOp) : (s.withRunning o).run.running = some o := rfl
@[simp] theorem withRunning_requests (o : HostOp) : (s.withRunning o).run.requests = s.run.requests := rfl
@[simp] theorem withRunning_txAnswers (o : HostOp) : (s.withRunning o).run.txAnswers = s.run.txAnswers := rfl
@[simp] theorem withRunning_pinAnswers (o : HostOp) : (s.withRunning o).run.pinAnswers = s.run.pinAnswers := rfl
@[simp] theorem withRunning_txCalls (o : HostOp) : (s.withRunning o).run.txCalls = s.run.txCalls := rfl
@[simp] theorem withRunning_pinCalls (o : HostOp) : (s.withRunning o).run.pinCalls = s.run.pinCalls := rfl
@[simp] theorem withRunning_trace (o : HostOp) : (s.withRunning o).run.trace = s.run.trace := rfl
@[simp] theorem withRunning_results (o : HostOp) : (s.withRunning o).run.results = s.run.results := rfl

/-! ### `withFb` replaces the pixel buffer -/

@[simp] theorem withFb_cfg (m : Memory) : (s.withFb m).cfg = s.cfg := rfl
@[simp] theorem withFb_fb (m : Memory) : (s.withFb m).fb = m := rfl
@[simp] theorem withFb_stepIdx (m : Memory) : (s.withFb m).stepIdx = s.stepIdx := rfl
@[simp] theorem withFb_running (m : Memory) : (s.withFb m).run.running = s.run.running := rfl
@[simp] theorem withFb_requests (m : Memory) : (s.withFb m).run.requests = s.run.requests := rfl
@[simp] theorem withFb_txAnswers (m : Memory) : (s.withFb m).run.txAnswers = s.run.txAnswers := rfl
@[simp] theorem withFb_pinAnswers (m : Memory) : (s.withFb m).run.pinAnswers = s.run.pinAnswers := rfl
@[simp] theorem withFb_txCalls (m : Memory) : (s.withFb m).run.txCalls = s.run.txCalls := rfl
@[simp] theorem withFb_pinCalls (m : Memory) : (s.withFb m).run.pinCalls = s.run.pinCalls := rfl
@[simp] theorem withFb_trace (m : Memory) : (s.withFb m).run.trace = s.run.trace := rfl
@[simp] theorem withFb_results (m : Memory) : (s.withFb m).run.results = s.run.results := rfl

/-! ### `begin` begins an operation -/

@[simp] theorem begin_cfg (o : HostOp) (rest : List Request) : (s.begin o rest).cfg = s.cfg := rfl
@[simp] theorem begin_fb (o : HostOp) (rest : List Request) : (s.begin o rest).fb = s.fb := rfl
@[simp] theorem begin_stepIdx (o : HostOp) (rest : List Request) : (s.begin o rest).stepIdx = 0 := rfl
@[simp] theorem begin_running (o : HostOp) (rest : List Request) : (s.begin o rest).run.running = some o := rfl
@[simp] theorem begin_requests (o : HostOp) (rest : List Request) : (s.begin o rest).run.requests = rest := rfl
@[simp] theorem begin_txAnswers (o : HostOp) (rest : List Request) : (s.begin o rest).run.txAnswers = s.run.txAnswers := rfl
@[simp] theorem begin_pinAnswers (o : HostOp) (rest : List Request) : (s.begin o rest).run.pinAnswers = s.run.pinAnswers := rfl
@[simp] theorem begin_txCalls (o : HostOp) (rest : List Request) : (s.begin o rest).run.txCalls = s.run.txCalls := rfl
@[simp] theorem begin_pinCalls (o : HostOp) (rest : List Request) : (s.begin o rest).run.pinCalls = s.run.pinCalls := rfl
@[simp] theorem begin_trace (o : HostOp) (rest : List Request) : (s.begin o rest).run.trace = s.run.trace := rfl
@[simp] theorem begin_results (o : HostOp) (rest : List Request) : (s.begin o rest).run.results = s.run.results := rfl

/-! ### `finish` ends an operation -/

@[simp] theorem finish_toBlock (r : OpResult) : (s.finish r).toBlock = s.toBlock := rfl
@[simp] theorem finish_cfg (r : OpResult) : (s.finish r).cfg = s.cfg := rfl
@[simp] theorem finish_fb (r : OpResult) : (s.finish r).fb = s.fb := rfl
@[simp] theorem finish_stepIdx (r : OpResult) : (s.finish r).stepIdx = s.stepIdx := rfl
@[simp] theorem finish_running (r : OpResult) : (s.finish r).run.running = none := rfl
@[simp] theorem finish_requests (r : OpResult) : (s.finish r).run.requests = s.run.requests := rfl
@[simp] theorem finish_txAnswers (r : OpResult) : (s.finish r).run.txAnswers = s.run.txAnswers := rfl
@[simp] theorem finish_pinAnswers (r : OpResult) : (s.finish r).run.pinAnswers = s.run.pinAnswers := rfl
@[simp] theorem finish_txCalls (r : OpResult) : (s.finish r).run.txCalls = s.run.txCalls := rfl
@[simp] theorem finish_pinCalls (r : OpResult) : (s.finish r).run.pinCalls = s.run.pinCalls := rfl
@[simp] theorem finish_trace (r : OpResult) : (s.finish r).run.trace = s.run.trace := rfl
@[simp] theorem finish_results (r : OpResult) : (s.finish r).run.results = s.run.results ++ [r] := rfl

/-! ### `raise` takes a fault -/

@[simp] theorem raise_toBlock (f : OpFault) : (s.raise f).toBlock = s.toBlock := rfl
@[simp] theorem raise_cfg (f : OpFault) : (s.raise f).cfg = s.cfg := rfl
@[simp] theorem raise_fb (f : OpFault) : (s.raise f).fb = s.fb := rfl
@[simp] theorem raise_stepIdx (f : OpFault) : (s.raise f).stepIdx = s.stepIdx := rfl
@[simp] theorem raise_running (f : OpFault) : (s.raise f).run.running = none := rfl
@[simp] theorem raise_requests (f : OpFault) : (s.raise f).run.requests = s.run.requests := rfl
@[simp] theorem raise_txAnswers (f : OpFault) : (s.raise f).run.txAnswers = s.run.txAnswers := rfl
@[simp] theorem raise_pinAnswers (f : OpFault) : (s.raise f).run.pinAnswers = s.run.pinAnswers := rfl
@[simp] theorem raise_txCalls (f : OpFault) : (s.raise f).run.txCalls = s.run.txCalls := rfl
@[simp] theorem raise_pinCalls (f : OpFault) : (s.raise f).run.pinCalls = s.run.pinCalls := rfl
@[simp] theorem raise_trace (f : OpFault) : (s.raise f).run.trace = s.run.trace := rfl
@[simp] theorem raise_results (f : OpFault) : (s.raise f).run.results = s.run.results ++ [.err f] := rfl

/-! ### The next answers depend on the answers alone -/

@[simp] theorem emit_nextTx (e : Event) : (s.emit e).nextTx = s.nextTx := rfl
@[simp] theorem emit_nextPin (e : Event) : (s.emit e).nextPin = s.nextPin := rfl
@[simp] theorem takeTx_nextPin : (s.takeTx).nextPin = s.nextPin := rfl
@[simp] theorem takePin_nextTx : (s.takePin).nextTx = s.nextTx := rfl
@[simp] theorem advance_nextTx : (s.advance).nextTx = s.nextTx := rfl
@[simp] theorem advance_nextPin : (s.advance).nextPin = s.nextPin := rfl
@[simp] theorem withRunning_nextTx (o : HostOp) : (s.withRunning o).nextTx = s.nextTx := rfl
@[simp] theorem withRunning_nextPin (o : HostOp) : (s.withRunning o).nextPin = s.nextPin := rfl
@[simp] theorem withFb_nextTx (m : Memory) : (s.withFb m).nextTx = s.nextTx := rfl
@[simp] theorem withFb_nextPin (m : Memory) : (s.withFb m).nextPin = s.nextPin := rfl
@[simp] theorem begin_nextTx (o : HostOp) (rest : List Request) : (s.begin o rest).nextTx = s.nextTx := rfl
@[simp] theorem begin_nextPin (o : HostOp) (rest : List Request) : (s.begin o rest).nextPin = s.nextPin := rfl
@[simp] theorem finish_nextTx (r : OpResult) : (s.finish r).nextTx = s.nextTx := rfl
@[simp] theorem finish_nextPin (r : OpResult) : (s.finish r).nextPin = s.nextPin := rfl
@[simp] theorem raise_nextTx (f : OpFault) : (s.raise f).nextTx = s.nextTx := rfl
@[simp] theorem raise_nextPin (f : OpFault) : (s.raise f).nextPin = s.nextPin := rfl

end Sys2Proof.Machine.State
end

