-- ==== Sys2Proof/Laws/Calls.lean ====
section
/-! SUPPORT. What each shared operation can do, said once: the four outward calls, sending a Command, one call of a
sequence, one pixel, and what the sequencer fetches. -/

namespace Sys2Proof.Machine

/-! ### The outward calls (R8): accepted, or the fault is taken -/

theorem State.txCmd_ok {s : State} {bytes : List Byte} (h : s.nextTx = .ok) :
    s.txCmd bytes = (s.emit (.cmd bytes .ok)).takeTx.advance := by simp [State.txCmd, h]

theorem State.txCmd_fault {s : State} {bytes : List Byte} {t : TransportFault} (h : s.nextTx = .fault t) :
    s.txCmd bytes = (s.emit (.cmd bytes (.fault t))).takeTx.raise (.transport t) := by simp [State.txCmd, h]

theorem State.txData_ok {s : State} {bytes : List Byte} (h : s.nextTx = .ok) :
    s.txData bytes = (s.emit (.data bytes .ok)).takeTx.advance := by simp [State.txData, h]

theorem State.txData_fault {s : State} {bytes : List Byte} {t : TransportFault} (h : s.nextTx = .fault t) :
    s.txData bytes = (s.emit (.data bytes (.fault t))).takeTx.raise (.transport t) := by simp [State.txData, h]

theorem State.pinSet_ok {s : State} {level : Level} (h : s.nextPin = .ok) :
    s.pinSet level = (s.emit (.pin level .ok)).takePin.advance := by simp [State.pinSet, h]

theorem State.pinSet_fault {s : State} {level : Level} {e : PinFault} (h : s.nextPin = .fault e) :
    s.pinSet level = (s.emit (.pin level (.fault e))).takePin.raise (.pin e) := by simp [State.pinSet, h]

/-- An answer listed in the state is the one the next transport call gets. -/
theorem State.nextTx_cons {s : State} {a : Answer TransportFault} {rest : List (Answer TransportFault)}
    (h : s.run.txAnswers = a :: rest) : s.nextTx = a := by simp [State.nextTx, h]

/-- An answer listed in the state is the one the next pin call gets. -/
theorem State.nextPin_cons {s : State} {a : Answer PinFault} {rest : List (Answer PinFault)}
    (h : s.run.pinAnswers = a :: rest) : s.nextPin = a := by simp [State.nextPin, h]

/-! ### What a call leaves unchanged -/

@[simp] theorem State.txCmd_fb (s : State) (bytes : List Byte) : (s.txCmd bytes).fb = s.fb := by
  unfold State.txCmd; split <;> simp

@[simp] theorem State.txCmd_cfg (s : State) (bytes : List Byte) : (s.txCmd bytes).cfg = s.cfg := by
  unfold State.txCmd; split <;> simp

@[simp] theorem State.txCmd_requests (s : State) (bytes : List Byte) :
    (s.txCmd bytes).run.requests = s.run.requests := by
  unfold State.txCmd; split <;> simp

@[simp] theorem State.txData_fb (s : State) (bytes : List Byte) : (s.txData bytes).fb = s.fb := by
  unfold State.txData; split <;> simp

@[simp] theorem State.txData_cfg (s : State) (bytes : List Byte) : (s.txData bytes).cfg = s.cfg := by
  unfold State.txData; split <;> simp

@[simp] theorem State.txData_requests (s : State) (bytes : List Byte) :
    (s.txData bytes).run.requests = s.run.requests := by
  unfold State.txData; split <;> simp

@[simp] theorem State.pinSet_fb (s : State) (level : Level) : (s.pinSet level).fb = s.fb := by
  unfold State.pinSet; split <;> simp

@[simp] theorem State.pinSet_cfg (s : State) (level : Level) : (s.pinSet level).cfg = s.cfg := by
  unfold State.pinSet; split <;> simp

@[simp] theorem State.pinSet_requests (s : State) (level : Level) :
    (s.pinSet level).run.requests = s.run.requests := by
  unfold State.pinSet; split <;> simp

@[simp] theorem State.delayMs_fb (s : State) (ms : Nat) : (s.delayMs ms).fb = s.fb := rfl

@[simp] theorem State.delayMs_cfg (s : State) (ms : Nat) : (s.delayMs ms).cfg = s.cfg := rfl

@[simp] theorem State.delayMs_requests (s : State) (ms : Nat) : (s.delayMs ms).run.requests = s.run.requests := rfl

/-! ### Sending a Command -/

/-- The array of `encode` cut to its length is the encoding (R94, R95). -/
theorem take_encodeArray (i : Instr) : (encodeArray i).take (encodeLength i) = encode i := by
  simp [encodeArray, encodeLength]

/-- Executing a Command is one command-channel call with its encoding. -/
theorem exec_eq_txCmd (i : Instr) (s : State) : exec i s = .next (s.txCmd (encode i)) := by
  cases i <;> exact congrArg Host.Outcome.next (congrArg s.txCmd (take_encodeArray _))

/-! ### One call of a sequence -/

/-- The next state of a call, where it has one: what it emitted, and whether the operation goes on. -/
theorem perform_next {c : Call} {s t : State} (h : perform c s = .next t) :
    (∃ i, c = .send i ∧ t = s.txCmd (encode i)) ∨
    (∃ bytes, c = .data bytes ∧ t = s.txData bytes) ∨
    (∃ start length bytes, c = .chunk start length ∧ s.memRead start length = some bytes ∧ t = s.txData bytes) ∨
    (∃ level, c = .pin level ∧ t = s.pinSet level) ∨
    (∃ ms, c = .delay ms ∧ t = s.delayMs ms) := by
  cases c with
  | send i =>
    simp only [perform, exec_eq_txCmd, Host.Outcome.next.injEq] at h
    exact .inl ⟨i, rfl, h.symm⟩
  | data bytes =>
    simp only [perform, Host.Outcome.next.injEq] at h
    exact .inr (.inl ⟨bytes, rfl, h.symm⟩)
  | chunk start length =>
    simp only [perform] at h
    split at h
    · rename_i bytes hb
      simp only [Host.Outcome.next.injEq] at h
      exact .inr (.inr (.inl ⟨start, length, bytes, rfl, hb, h.symm⟩))
    · cases h
  | pin level =>
    simp only [perform, Host.Outcome.next.injEq] at h
    exact .inr (.inr (.inr (.inl ⟨level, rfl, h.symm⟩)))
  | delay ms =>
    simp only [perform, Host.Outcome.next.injEq] at h
    exact .inr (.inr (.inr (.inr ⟨ms, rfl, h.symm⟩)))

/-- No call writes the pixel buffer, the parameters or the host's requests. -/
theorem perform_frame {c : Call} {s t : State} (h : perform c s = .next t) :
    t.fb = s.fb ∧ t.cfg = s.cfg ∧ t.run.requests = s.run.requests := by
  rcases perform_next h with ⟨i, -, rfl⟩ | ⟨b, -, rfl⟩ | ⟨a, n, b, -, -, rfl⟩ | ⟨l, -, rfl⟩ | ⟨ms, -, rfl⟩ <;> simp

/-- Ending an operation changes the run record alone. -/
theorem endIfDone_cases (calls : Nat → Option Call) (s : State) :
    (endIfDone calls s = s ∧ (s.run.running = none ∨ (calls s.stepIdx).isSome)) ∨
    (endIfDone calls s = s.finish .ok ∧ s.run.running.isSome ∧ calls s.stepIdx = none) := by
  unfold endIfDone
  cases hr : s.run.running with
  | none => simp
  | some o =>
    cases hc : calls s.stepIdx with
    | none => simp
    | some c => simp

/-- A change of the next state shows in the outcome. -/
theorem mapNext_next {o : StepOutcome} {f : State → State} {t : State} (h : mapNext o f = .next t) :
    ∃ s, o = .next s ∧ f s = t := by
  cases o with
  | next s => exact ⟨s, rfl, by simpa [mapNext] using h⟩
  | fault r => simp [mapNext] at h
  | refused r => simp [mapNext] at h

/-- One step of a sequence: it was already over, or one call was made and the end was checked. -/
theorem runSequence_next {calls : Nat → Option Call} {s t : State} (h : runSequence calls s = .next t) :
    (calls s.stepIdx = none ∧ t = s.finish .ok) ∨
    (∃ c u, calls s.stepIdx = some c ∧ perform c s = .next u ∧ t = endIfDone calls u) := by
  unfold runSequence at h
  cases hc : calls s.stepIdx with
  | none =>
    rw [hc] at h
    simp only [Host.Outcome.next.injEq] at h
    exact .inl ⟨rfl, h.symm⟩
  | some c =>
    rw [hc] at h
    obtain ⟨u, hu, ht⟩ := mapNext_next h
    exact .inr ⟨c, u, rfl, hu, ht.symm⟩

/-! ### One pixel -/

/-- What setting a pixel can do: nothing outside the display, one byte inside it. -/
theorem plot_next {x y : Nat} {value : Bool} {s t : State} (h : plot x y value s = .next t) :
    (pixelInside s.cfg x y = false ∧ t = s) ∨
    (pixelInside s.cfg x y = true ∧ pixelIndex s.cfg x y < s.cfg.bytes ∧
      t = s.withFb (Memory.write s.fb (pixelIndex s.cfg x y)
        (putBit (s.fbByte (pixelIndex s.cfg x y)) (pixelBit y) value))) := by
  unfold plot at h
  cases hp : pixelInside s.cfg x y with
  | false =>
    simp only [hp, Bool.false_eq_true, if_false, Host.Outcome.next.injEq] at h
    exact .inl ⟨rfl, h.symm⟩
  | true =>
    by_cases hi : pixelIndex s.cfg x y < s.cfg.bytes
    · simp only [hp, if_true, State.fbRead, State.fbWrite, hi, Host.Outcome.next.injEq] at h
      exact .inr ⟨rfl, hi, h.symm⟩
    · simp [hp, State.fbRead, hi] at h

/-- A pixel of the display: its byte is written. -/
theorem plot_inside {x y : Nat} {s : State} (value : Bool) (hp : pixelInside s.cfg x y = true)
    (hi : pixelIndex s.cfg x y < s.cfg.bytes) :
    plot x y value s = .next (s.withFb (Memory.write s.fb (pixelIndex s.cfg x y)
      (putBit (s.fbByte (pixelIndex s.cfg x y)) (pixelBit y) value))) := by
  simp [plot, hp, State.fbRead, State.fbWrite, hi, State.withFb]

/-- Outside the display nothing happens (R122). -/
theorem plot_outside {x y : Nat} {s : State} (value : Bool) (hp : pixelInside s.cfg x y = false) :
    plot x y value s = .next s := by
  simp [plot, hp]

/-! ### Fetching -/

/-- The state an operation runs from: the same one, or the one in which it has just begun. -/
theorem fetch_run {s t : State} {o : HostOp} (h : fetch s = .run o t) :
    (s.run.running = some o ∧ t = s) ∨
    (s.run.running = none ∧ o.availableIn s.cfg.mode = true ∧ ∃ rest, t = s.begin o rest ∧
      (s.run.requests = .op o :: rest ∨
        ∃ bytes i, s.run.requests = .encoded bytes :: rest ∧ decodeArray bytes = .ok i ∧ o = .send i)) := by
  unfold fetch at h
  cases hr : s.run.running with
  | some p =>
    simp only [hr, Fetched.run.injEq] at h
    exact .inl ⟨by rw [h.1], h.2.symm⟩
  | none =>
    simp only [hr] at h
    cases hq : s.run.requests with
    | nil => simp [hq] at h
    | cons q rest =>
      cases q with
      | op p =>
        simp only [hq] at h
        split at h
        · rename_i ha
          simp only [Fetched.run.injEq] at h
          obtain ⟨rfl, rfl⟩ := h
          exact .inr ⟨rfl, ha, rest, rfl, .inl rfl⟩
        · cases h
      | encoded bytes =>
        simp only [hq] at h
        cases hd : decodeArray bytes with
        | error e => simp [hd] at h
        | ok i =>
          simp only [hd, Fetched.run.injEq] at h
          obtain ⟨rfl, rfl⟩ := h
          exact .inr ⟨rfl, rfl, rest, rfl, .inr ⟨bytes, i, rfl, hd, rfl⟩⟩

end Sys2Proof.Machine
end

