-- ==== Sys2Proof/Laws/Answers.lean ====
section
/-! SUPPORT. The stream of coming answers, and runs of several steps. -/

namespace Sys2Proof.Machine

theorem State.nextTx_eq (s : State) : s.nextTx = s.txAnswer 0 := by
  unfold State.nextTx State.txAnswer
  cases s.run.txAnswers <;> simp

theorem State.nextPin_eq (s : State) : s.nextPin = s.pinAnswer 0 := by
  unfold State.nextPin State.pinAnswer
  cases s.run.pinAnswers <;> simp

/-- Answers depend on the list and the counter alone. -/
theorem State.txAnswer_congr {s t : State} (h₁ : t.run.txAnswers = s.run.txAnswers)
    (h₂ : t.run.txCalls = s.run.txCalls) (k : Nat) : t.txAnswer k = s.txAnswer k := by
  simp [State.txAnswer, h₁, h₂]

theorem State.pinAnswer_congr {s t : State} (h₁ : t.run.pinAnswers = s.run.pinAnswers)
    (h₂ : t.run.pinCalls = s.run.pinCalls) (k : Nat) : t.pinAnswer k = s.pinAnswer k := by
  simp [State.pinAnswer, h₁, h₂]

/-- Once an answer is taken, the k-th coming one is the one that was (k+1)-th. -/
theorem State.takeTx_txAnswer (s : State) (k : Nat) : s.takeTx.txAnswer k = s.txAnswer (k + 1) := by
  simp [State.txAnswer, State.takeTx, Nat.add_assoc, Nat.add_comm 1 k]

theorem State.takePin_pinAnswer (s : State) (k : Nat) : s.takePin.pinAnswer k = s.pinAnswer (k + 1) := by
  simp [State.pinAnswer, State.takePin, Nat.add_assoc, Nat.add_comm 1 k]

theorem steps_zero (s : State) : steps 0 s = .next s := rfl

theorem steps_succ {s t : State} (n : Nat) (h : step s = .next t) : steps (n + 1) s = steps n t := by
  simp [steps, h]

/-- A run can be cut in two. -/
theorem steps_add {s t : State} (m n : Nat) (h : steps m s = .next t) : steps (m + n) s = steps n t := by
  induction m generalizing s with
  | zero => simp only [steps, Host.Outcome.next.injEq] at h; simp [h]
  | succ m ih =>
    rw [Nat.succ_add]
    simp only [steps] at h ⊢
    cases hs : step s with
    | next u => rw [hs] at h; exact ih h
    | fault r => rw [hs] at h; cases h
    | refused r => rw [hs] at h; cases h

end Sys2Proof.Machine
end

