-- ==== Sys2Proof/Laws/Decode.lean ====
section
/-! SUPPORT. Reading one parameter byte, and what each reader answers. -/

namespace Sys2Proof

/-- A parameter whose masked value is itself is read back. -/
theorem readParameter_kept {keep p : Byte} (byte0 : Byte) (rest : List Byte) (h : p &&& keep = p) :
    readParameter keep byte0 ((p &&& keep) :: rest) = .ok (p, rest) := by
  have h' : p &&& ~~~keep = 0 := by
    rw [← h, BitVec.and_assoc, BitVec.and_not_self]; simp
  simp only [readParameter, h, h', if_true]

/-- An unmasked parameter is read as it is. -/
theorem readParameter_whole (byte0 p : Byte) (rest : List Byte) :
    readParameter 0xFF byte0 (p :: rest) = .ok (p, rest) := by
  have h : ∀ q : Byte, q &&& 0xFF = q := by decide
  have hr := readParameter_kept (keep := 0xFF) byte0 rest (h p)
  rwa [h p] at hr

theorem and_mask5 : ∀ v : Byte, fits 5 v = true → v &&& 0x1F = v := by decide
theorem and_mask6 : ∀ v : Byte, fits 6 v = true → v &&& 0x3F = v := by decide
theorem and_mask7 : ∀ v : Byte, fits 7 v = true → v &&& 0x7F = v := by decide
theorem and_mask2 : ∀ v : Byte, fits 2 v = true → v &&& 0x03 = v := by decide

/-- What reading a parameter can answer: it was there, its masked-off bits were 0. -/
theorem readParameter_ok {keep byte0 p : Byte} {bytes rest : List Byte}
    (h : readParameter keep byte0 bytes = .ok (p, rest)) : bytes = p :: rest ∧ p &&& ~~~keep = 0 := by
  cases bytes with
  | nil => simp [readParameter] at h
  | cons q qs =>
    simp only [readParameter] at h
    split at h
    · rename_i hq
      simp only [Except.ok.injEq, Prod.mk.injEq] at h
      obtain ⟨rfl, rfl⟩ := h
      exact ⟨rfl, hq⟩
    · cases h

theorem readP1_ok {make : Byte → Instr} {keep byte0 : Byte} {bytes rest : List Byte} {i : Instr}
    (h : readP1 make keep byte0 bytes = .ok (i, rest)) :
    ∃ p, bytes = p :: rest ∧ p &&& ~~~keep = 0 ∧ i = make p := by
  unfold readP1 at h
  cases hp : readParameter keep byte0 bytes with
  | error e => simp [hp] at h
  | ok q =>
    obtain ⟨p, ps⟩ := q
    simp only [hp, Except.ok.injEq, Prod.mk.injEq] at h
    obtain ⟨rfl, rfl⟩ := h
    exact ⟨p, (readParameter_ok hp).1, (readParameter_ok hp).2, rfl⟩

theorem readP2_ok {make : Byte → Byte → Instr} {keep byte0 : Byte} {bytes rest : List Byte} {i : Instr}
    (h : readP2 make keep byte0 bytes = .ok (i, rest)) :
    ∃ p q, bytes = p :: q :: rest ∧ p &&& ~~~keep = 0 ∧ q &&& ~~~keep = 0 ∧ i = make p q := by
  unfold readP2 at h
  cases hp : readParameter keep byte0 bytes with
  | error e => simp [hp] at h
  | ok a =>
    obtain ⟨p, ps⟩ := a
    simp only [hp] at h
    cases hq : readParameter keep byte0 ps with
    | error e => simp [hq] at h
    | ok b =>
      obtain ⟨q, qs⟩ := b
      simp only [hq, Except.ok.injEq, Prod.mk.injEq] at h
      obtain ⟨rfl, rfl⟩ := h
      have h₁ := readParameter_ok hp
      have h₂ := readParameter_ok hq
      exact ⟨p, q, by rw [h₁.1, h₂.1], h₁.2, h₂.2, rfl⟩

end Sys2Proof
end

