-- ==== Sys2Proof/Laws/Memory.lean ====
section
/-! SUPPORT. The laws of the pixel buffer: read after write, and that every operation keeps the canonical form and the
index bound. -/

namespace Sys2Proof.Machine

theorem Memory.read_write_same (m : Memory) (a : Nat) (v : Byte) : Memory.read (Memory.write m a v) a = some v := by
  induction m with
  | nil => simp [Memory.write, Memory.read]
  | cons c rest ih =>
    obtain ⟨b, w⟩ := c
    simp only [Memory.write]
    split
    · simp [Memory.read]
    · split
      · simp [Memory.read]
      · rename_i h₁ h₂
        simp [Memory.read, h₂, ih]

theorem Memory.read_write_other (m : Memory) {a b : Nat} (v : Byte) (h : b ≠ a) :
    Memory.read (Memory.write m a v) b = Memory.read m b := by
  induction m with
  | nil => simp [Memory.write, Memory.read, h]
  | cons c rest ih =>
    obtain ⟨k, w⟩ := c
    simp only [Memory.write]
    split
    · simp [Memory.read, h]
    · split
      · rename_i h₁ h₂
        subst h₂
        simp [Memory.read, h]
      · simp [Memory.read, ih]

/-- The indices a write lists: those before, and the one written. -/
theorem Memory.mem_write {m : Memory} {a : Nat} {v : Byte} {c : Host.Cell} (h : c ∈ Memory.write m a v) :
    c = (a, v) ∨ c ∈ m := by
  induction m with
  | nil => simpa [Memory.write] using h
  | cons d rest ih =>
    obtain ⟨k, w⟩ := d
    simp only [Memory.write] at h
    split at h
    · simpa using h
    · split at h
      · rcases List.mem_cons.1 h with h | h
        · exact .inl h
        · exact .inr (List.mem_cons_of_mem _ h)
      · rcases List.mem_cons.1 h with h | h
        · exact .inr (h ▸ List.mem_cons_self)
        · exact (ih h).imp id (List.mem_cons_of_mem _)

theorem Memory.write_wf {m : Memory} (a : Nat) (v : Byte) (h : Memory.wf m) : Memory.wf (Memory.write m a v) := by
  induction m with
  | nil => simp [Memory.write, Memory.wf]
  | cons d rest ih =>
    obtain ⟨k, w⟩ := d
    obtain ⟨hd, hr⟩ := List.pairwise_cons.1 h
    simp only [Memory.write]
    split
    · rename_i hlt
      refine List.pairwise_cons.2 ⟨fun c hc => ?_, h⟩
      rcases List.mem_cons.1 hc with rfl | hc
      · exact hlt
      · exact Nat.lt_trans hlt (hd c hc)
    · split
      · rename_i h₁ h₂
        subst h₂
        exact List.pairwise_cons.2 ⟨hd, hr⟩
      · rename_i h₁ h₂
        refine List.pairwise_cons.2 ⟨fun c hc => ?_, ih hr⟩
        rcases Memory.mem_write hc with rfl | hc
        · simp only; omega
        · exact hd c hc

theorem Memory.write_below {m : Memory} {n a : Nat} (v : Byte) (h : Memory.below n m) (ha : a < n) :
    Memory.below n (Memory.write m a v) := by
  intro c hc
  rcases Memory.mem_write hc with rfl | hc
  · exact ha
  · exact h c hc

theorem Memory.writeList_wf {m : Memory} (a : Nat) (vs : List Byte) (h : Memory.wf m) :
    Memory.wf (Memory.writeList m a vs) := by
  induction vs generalizing m a with
  | nil => exact h
  | cons v vs ih => exact ih (a + 1) (Memory.write_wf a v h)

theorem Memory.writeList_below {m : Memory} {n a : Nat} {vs : List Byte} (h : Memory.below n m)
    (ha : a + vs.length ≤ n) : Memory.below n (Memory.writeList m a vs) := by
  induction vs generalizing m a with
  | nil => exact h
  | cons v vs ih =>
    simp only [List.length_cons] at ha
    exact ih (Memory.write_below v h (by omega)) (by omega)

theorem Memory.fill_wf (n : Nat) (v : Byte) : Memory.wf (Memory.fill n v) :=
  List.pairwise_map.2 (List.pairwise_lt_range (n := n))

theorem Memory.fill_below (n : Nat) (v : Byte) : Memory.below n (Memory.fill n v) := by
  intro c hc
  obtain ⟨i, hi, rfl⟩ := List.mem_map.1 hc
  exact List.mem_range.1 hi

/-- Reading a list of cells built from an index list finds every listed index. -/
theorem Memory.read_map (l : List Nat) (v : Byte) (i : Nat) :
    Memory.read (l.map (fun i => (i, v))) i = if i ∈ l then some v else none := by
  induction l with
  | nil => simp [Memory.read]
  | cons k l ih =>
    by_cases h : i = k
    · simp [Memory.read, h]
    · simp [Memory.read, h, ih]

theorem Memory.read_fill (n : Nat) (v : Byte) (i : Nat) :
    Memory.read (Memory.fill n v) i = if i < n then some v else none := by
  simp [Memory.fill, Memory.read_map]

/-- The buffer at instantiation has the canonical form. -/
theorem reset_fb_wf : Memory.wf State.reset.fb := List.Pairwise.nil

end Sys2Proof.Machine
end

