-- ==== Sys2Proof/Laws/Observe.lean ====
section
/-! SUPPORT. The views computed from the trace grow event by event. -/

namespace Sys2Proof.Machine

/-- What the trace says of the downstream registers is kept event by event. -/
theorem lastSent_snoc (trace : List Event) (e : Event) : lastSent (trace ++ [e]) = (lastSent trace).after e := by
  simp [lastSent]

/-- What the trace says of the reset line is kept event by event. -/
theorem resetLine_snoc (trace : List Event) (e : Event) : resetLine (trace ++ [e]) = (resetLine trace).after e := by
  simp [resetLine]

/-- The level last driven is kept event by event. -/
theorem lastDriven_snoc (trace : List Event) (e : Event) :
    lastDriven (trace ++ [e]) = lastDrivenAfter (lastDriven trace) e := by
  simp [lastDriven]

/-- A failed pin call of the level the line is at leaves it there (R144). -/
theorem ResetLine.afterFailed_same (level : Level) :
    ResetLine.afterFailed (.driven level) level = .driven level := by simp [ResetLine.afterFailed]

/-- A failed pin call of the other level leaves the line unknown (R101). -/
theorem ResetLine.afterFailed_other {l level : Level} (h : l ≠ level) :
    ResetLine.afterFailed (.driven l) level = .unknown := by simp [ResetLine.afterFailed, h]

theorem dataBytes_append (xs ys : List Event) : dataBytes (xs ++ ys) = dataBytes xs ++ dataBytes ys := by
  induction xs with
  | nil => rfl
  | cons e xs ih => cases e <;> simp [dataBytes, ih]

theorem waitTotal_append (xs ys : List Event) : waitTotal (xs ++ ys) = waitTotal xs + waitTotal ys := by
  induction xs with
  | nil => simp [waitTotal]
  | cons e xs ih => cases e <;> simp [waitTotal, ih, Nat.add_assoc]

end Sys2Proof.Machine
end

