-- ==== Sys2Proof/Laws/PerInstr.lean ====
section
/-! SUPPORT. A statement about every Command as syntax, one lemma per Command: its encoding has the byte count the table
gives its variant, and the array of `encode` has three bytes (rules R60, R65, R94). -/

namespace Sys2Proof.Laws.ByteCount

/-- The encoding's length is the variant's byte count, at most 3, and `encode`'s array has 3 bytes. -/
def Statement (i : Instr) : Prop :=
  (encode i).length = byteCount i ∧ byteCount i = (tableRow i).length ∧ (encodeArray i).length = 3

theorem ayAddress (a : Byte) : Statement (.ayAddress a) := ⟨rfl, rfl, rfl⟩
theorem bias (b : Byte) : Statement (.bias b) := ⟨rfl, rfl, rfl⟩
theorem voltageClock (c : Byte) : Statement (.voltageClock c) := ⟨rfl, rfl, rfl⟩
theorem powerControl (p : Byte) : Statement (.powerControl p) := ⟨rfl, rfl, rfl⟩
theorem displayOn (on : Bool) : Statement (.displayOn on) := ⟨rfl, rfl, rfl⟩
theorem startLine (line : Byte) : Statement (.startLine line) := ⟨rfl, rfl, rfl⟩
theorem displayControl (shl adc eon rev : Bool) : Statement (.displayControl shl adc eon rev) := ⟨rfl, rfl, rfl⟩
theorem ayWindow (first last : Byte) : Statement (.ayWindow first last) := ⟨rfl, rfl, rfl⟩
theorem axWindow (first last : Byte) : Statement (.axWindow first last) := ⟨rfl, rfl, rfl⟩
theorem swReset : Statement .swReset := ⟨rfl, rfl, rfl⟩
theorem duty (d : Byte) : Statement (.duty d) := ⟨rfl, rfl, rfl⟩
theorem contrast (c : Byte) : Statement (.contrast c) := ⟨rfl, rfl, rfl⟩
theorem axAddress (a : Byte) : Statement (.axAddress a) := ⟨rfl, rfl, rfl⟩
theorem booster (level : Byte) : Statement (.booster level) := ⟨rfl, rfl, rfl⟩

end Sys2Proof.Laws.ByteCount
end

