-- ==== Sys2Proof/Laws/Step.lean ====
section
/-! SUPPORT. What one step is: of a running operation, of one the host invokes, of a Command given as bytes, and none. -/

namespace Sys2Proof.Machine

theorem step_running {s : State} {o : HostOp} (h : s.run.running = some o) : step s = runOp o s := by
  simp [step, sequencerStep, fetch, h]

theorem step_invokes {s : State} {o : HostOp} {rest : List Request} (h : s.invokes o rest)
    (ha : o.availableIn s.cfg.mode = true) : step s = runOp o (s.begin o rest) := by
  simp [step, sequencerStep, fetch, h.1, h.2, ha]

theorem step_encoded {s : State} {bytes : List Byte} {rest : List Request} {i : Instr} (hr : s.run.running = none)
    (hq : s.run.requests = .encoded bytes :: rest) (hd : decodeArray bytes = .ok i) :
    step s = runOp (.send i) (s.begin (.send i) rest) := by
  simp [step, sequencerStep, fetch, hr, hq, hd]

/-- A step that answers a next state either had nothing to do, or was a step of what was fetched. -/
theorem step_next {s t : State} (h : step s = .next t) :
    (fetch s = .idle ∧ t = s) ∨ ∃ o u, fetch s = .run o u ∧ runOp o u = .next t := by
  unfold step sequencerStep at h
  cases hf : fetch s with
  | idle => rw [hf] at h; exact .inl ⟨rfl, (Host.Outcome.next.inj h).symm⟩
  | run o u => rw [hf] at h; exact .inr ⟨o, u, rfl, h⟩
  | refuse r => rw [hf] at h; cases h

/-- The state an operation runs from has the buffer, the parameters, the answers and the past of the state before. -/
theorem fetch_run_frame {s u : State} {o : HostOp} (h : fetch s = .run o u) :
    u.fb = s.fb ∧ u.cfg = s.cfg ∧ u.run.running = some o ∧ u.run.trace = s.run.trace ∧
    u.run.results = s.run.results ∧ u.run.txAnswers = s.run.txAnswers ∧ u.run.txCalls = s.run.txCalls ∧
    u.run.pinAnswers = s.run.pinAnswers ∧ u.run.pinCalls = s.run.pinCalls := by
  rcases fetch_run h with ⟨hr, rfl⟩ | ⟨_, _, rest, rfl, _⟩
  · exact ⟨rfl, rfl, hr, rfl, rfl, rfl, rfl, rfl, rfl⟩
  · exact ⟨rfl, rfl, rfl, rfl, rfl, rfl, rfl, rfl, rfl⟩

/-- One step of a sequence, with the end check opened: it was over, or one call was made and the operation goes on, has ended
by a fault, or ends with `Ok`. -/
theorem runSequence_cases {calls : Nat → Option Call} {u t : State} (h : runSequence calls u = .next t) :
    (calls u.stepIdx = none ∧ t = u.finish .ok) ∨
    (∃ c v, calls u.stepIdx = some c ∧ perform c u = .next v ∧
      ((t = v ∧ (v.run.running = none ∨ (calls v.stepIdx).isSome)) ∨
        (t = v.finish .ok ∧ v.run.running.isSome ∧ calls v.stepIdx = none))) := by
  rcases runSequence_next h with h | ⟨c, v, hc, hp, rfl⟩
  · exact .inl h
  · rcases endIfDone_cases calls v with ⟨h₁, h₂⟩ | ⟨h₁, h₂⟩
    · exact .inr ⟨c, v, hc, hp, .inl ⟨h₁, h₂⟩⟩
    · exact .inr ⟨c, v, hc, hp, .inr ⟨h₁, h₂⟩⟩

/-- An event of `draw_pixels` writes the buffer at most. -/
theorem applyEvent_next {e : PixelEvent} {s t : State} (h : applyEvent e s = .next t) :
    t = s ∨ (insideBox s.cfg e.px e.py = true ∧ pixelIndex s.cfg e.px.toNat e.py.toNat < s.cfg.bytes ∧
      t = s.withFb (Memory.write s.fb (pixelIndex s.cfg e.px.toNat e.py.toNat)
        (putBit (s.fbByte (pixelIndex s.cfg e.px.toNat e.py.toNat)) (pixelBit e.py.toNat) e.on))) := by
  unfold applyEvent at h
  split at h
  · rename_i hb
    rcases plot_next h with ⟨-, rfl⟩ | ⟨-, hi, rfl⟩
    · exact .inl rfl
    · exact .inr ⟨hb, hi, rfl⟩
  · simp only [Host.Outcome.next.injEq] at h
    exact .inl h.symm

/-- WHAT ONE STEP OF AN OPERATION CAN DO, said once: it ends without a call; or it makes the call of its position, after which
it goes on, has been ended by a fault, or ends with `Ok`; or it changes the pixel buffer, keeping it canonical and inside its
bounds, and ends or has pixel events left. -/
theorem runOp_next {o : HostOp} {u t : State} (h : runOp o u = .next t) :
    (o.callAt u.cfg u.stepIdx = none ∧ o.drawsInBuffer = false ∧
      ∃ r, t = u.finish r ∧ (r = .ok ∨ ∃ bytes length, r = .encoded bytes length)) ∨
    (∃ c v, o.callAt u.cfg u.stepIdx = some c ∧ perform c u = .next v ∧
      ((t = v ∧ (v.run.running = none ∨ (o.callAt v.cfg v.stepIdx).isSome)) ∨
        (t = v.finish .ok ∧ v.run.running.isSome ∧ o.callAt v.cfg v.stepIdx = none))) ∨
    (o.drawsInBuffer = true ∧ ∃ m, (Memory.wf u.fb → Memory.wf m) ∧
      (Memory.below u.cfg.bytes u.fb → Memory.below u.cfg.bytes m) ∧
      (t = (u.withFb m).finish .ok ∨
        ∃ e es, o = .drawPixels (e :: es) ∧ es ≠ [] ∧ t = (u.withFb m).withRunning (.drawPixels es))) := by
  have sequence : ∀ (calls : Nat → Option Call), runSequence calls u = .next t →
      (∀ v : State, v.cfg = u.cfg → ∀ k, o.callAt v.cfg k = calls k) → o.drawsInBuffer = false →
      (o.callAt u.cfg u.stepIdx = none ∧ o.drawsInBuffer = false ∧
        ∃ r, t = u.finish r ∧ (r = .ok ∨ ∃ bytes length, r = .encoded bytes length)) ∨
      (∃ c v, o.callAt u.cfg u.stepIdx = some c ∧ perform c u = .next v ∧
        ((t = v ∧ (v.run.running = none ∨ (o.callAt v.cfg v.stepIdx).isSome)) ∨
          (t = v.finish .ok ∧ v.run.running.isSome ∧ o.callAt v.cfg v.stepIdx = none))) := by
    intro calls hr hcalls hb
    rcases runSequence_cases hr with ⟨hn, rfl⟩ | ⟨c, v, hc, hp, hv⟩
    · exact .inl ⟨(hcalls u rfl _).trans hn, hb, .ok, rfl, .inl rfl⟩
    · refine .inr ⟨c, v, (hcalls u rfl _).trans hc, hp, ?_⟩
      rw [hcalls v (perform_frame hp).2.1]
      exact hv
  have drew : ∀ (m : Memory), t = (u.withFb m).finish .ok → o.drawsInBuffer = true →
      (Memory.wf u.fb → Memory.wf m) → (Memory.below u.cfg.bytes u.fb → Memory.below u.cfg.bytes m) →
      o.drawsInBuffer = true ∧ ∃ m, (Memory.wf u.fb → Memory.wf m) ∧
        (Memory.below u.cfg.bytes u.fb → Memory.below u.cfg.bytes m) ∧
        (t = (u.withFb m).finish .ok ∨
          ∃ e es, o = .drawPixels (e :: es) ∧ es ≠ [] ∧ t = (u.withFb m).withRunning (.drawPixels es)) :=
    fun m ht hb h₁ h₂ => ⟨hb, m, h₁, h₂, .inl ht⟩
  cases o with
  | encode c => exact .inl ⟨rfl, rfl, _, (Host.Outcome.next.inj h).symm, .inr ⟨_, _, rfl⟩⟩
  | send c => exact (sequence _ h (fun _ _ _ => rfl) rfl).imp id .inl
  | reset => exact (sequence _ h (fun _ _ _ => rfl) rfl).imp id .inl
  | init => exact (sequence _ h (fun _ _ _ => rfl) rfl).imp id .inl
  | draw buffer => exact (sequence _ h (fun _ _ _ => rfl) rfl).imp id .inl
  | setDisplayOn on => exact (sequence _ h (fun _ _ _ => rfl) rfl).imp id .inl
  | setDrawArea sx sy ex ey => exact (sequence _ h (fun _ _ _ => rfl) rfl).imp id .inl
  | flush =>
    simp only [runOp, opFlush] at h
    split at h
    · cases h
    · exact (sequence _ h (fun v hv k => by rw [hv]; rfl) rfl).imp id .inl
  | clear =>
    exact .inr (.inr (drew _ (Host.Outcome.next.inj h).symm rfl (fun _ => Memory.fill_wf _ _)
      (fun _ => Memory.fill_below _ _)))
  | setPixel x y value =>
    obtain ⟨v, hv, rfl⟩ := mapNext_next h
    rcases plot_next hv with ⟨-, rfl⟩ | ⟨-, hi, rfl⟩
    · exact .inr (.inr (drew v.fb rfl rfl id id))
    · exact .inr (.inr (drew _ rfl rfl (Memory.write_wf _ _) (fun hb => Memory.write_below _ hb hi)))
  | drawPixels events =>
    simp only [runOp] at h
    unfold opDrawPixels at h
    split at h
    · exact .inr (.inr (drew u.fb (Host.Outcome.next.inj h).symm rfl id id))
    · obtain ⟨v, hv, rfl⟩ := mapNext_next h
      rcases applyEvent_next hv with rfl | ⟨-, hi, rfl⟩
      · exact .inr (.inr (drew v.fb rfl rfl id id))
      · exact .inr (.inr (drew _ rfl rfl (Memory.write_wf _ _) (fun hb => Memory.write_below _ hb hi)))
    · rename_i e es hne
      have hes : es ≠ [] := hne
      obtain ⟨v, hv, rfl⟩ := mapNext_next h
      rcases applyEvent_next hv with rfl | ⟨-, hi, rfl⟩
      · exact .inr (.inr ⟨rfl, v.fb, id, id, .inr ⟨e, es, rfl, hes, rfl⟩⟩)
      · exact .inr (.inr ⟨rfl, _, Memory.write_wf _ _, fun hb => Memory.write_below _ hb hi, .inr ⟨e, es, rfl, hes, rfl⟩⟩)

end Sys2Proof.Machine
end

