-- ==== Sys2Proof/Tests/Slice0.lean ====
section
/-! SUPPORT. Tests. Expected values are the spec's: the vectors V1 to V11 and examples S1 to S10 of 95_test_vectors.md, and the
rules named at each. The last part shows, for every statement with hypotheses, a state that meets them. -/

namespace Sys2Proof.Tests

open Sys2Proof.Machine

/-- A small machine: 3 columns, 16 rows (N = 6 bytes), chunks of 4 bytes. -/
def small : Config := { width := 3, height := 16, chunk := 4, mode := .buffered }

/-- The same without a buffer. -/
def smallBasic : Config := { small with mode := .basic }

/-- A freshly instantiated block with requests and answers listed. -/
def boot (c : Config) (requests : List Request) (tx : List (Answer TransportFault)) (pin : List (Answer PinFault)) :
    State :=
  { State.resetWith c with run := { Run.idle with requests := requests, txAnswers := tx, pinAnswers := pin } }

/-- An operation under way at a step. -/
def during (c : Config) (o : HostOp) (k : Nat) (tx : List (Answer TransportFault)) : State :=
  { boot c [] tx [] with stepIdx := k, run := { (boot c [] tx []).run with running := some o } }

/-- A machine whose display is the 128 × 128 of the vectors, with some buffer bytes written. -/
def full (fb : Memory) (requests : List Request) : State :=
  { boot { width := 128, height := 128, chunk := 512, mode := .buffered } requests [] [] with fb := fb }

/-- What a step changed, where it answers a next state. -/
def view {α : Type} (o : StepOutcome) (f : State → α) : Option α :=
  match o with
  | .next s => some (f s)
  | .fault _ => none
  | .refused _ => none

def t7 : TransportFault := .some
def e9 : PinFault := .some

/-! ### WellFormed refuses an ill-formed term for each of its checks -/

theorem test_wf_refuses_ayAddress : (Instr.ayAddress 0x20).wf = false := by decide
theorem test_wf_refuses_bias : (Instr.bias 0x40).wf = false := by decide
theorem test_wf_refuses_voltageClock : (Instr.voltageClock 0x40).wf = false := by decide
theorem test_wf_refuses_ayWindow_first : (Instr.ayWindow 0x20 0).wf = false := by decide
theorem test_wf_refuses_ayWindow_last : (Instr.ayWindow 0 0x20).wf = false := by decide
theorem test_wf_refuses_axWindow_first : (Instr.axWindow 0x80 0).wf = false := by decide
theorem test_wf_refuses_axWindow_last : (Instr.axWindow 0 0x80).wf = false := by decide
theorem test_wf_refuses_axAddress : (Instr.axAddress 0x80).wf = false := by decide
theorem test_wf_refuses_booster : (Instr.booster 4).wf = false := by decide
theorem test_wf_accepts_largest :
    (Instr.ayWindow 0x1F 0x1F).wf = true ∧ (Instr.axWindow 0x7F 0x7F).wf = true ∧ (Instr.bias 0x3F).wf = true ∧
    (Instr.booster 3).wf = true ∧ (Instr.powerControl 0xFF).wf = true := by decide

/-! ### Decoding: a word of the spec for every Command (V1; table words as R75 numbers them) -/

theorem test_decode_ayAddress : decodeTableWord 16 0b0000000100001111 = some (.ayAddress 0x0F) := by decide
theorem test_decode_bias : decodeTableWord 16 0b0011000000010000 = some (.bias 16) := by decide
theorem test_decode_voltageClock : decodeTableWord 16 0b0011000100111111 = some (.voltageClock 0x3F) := by decide
theorem test_decode_powerControl : decodeTableWord 16 0b0011001100101100 = some (.powerControl 0x2C) := by decide
theorem test_decode_displayOn : decodeTableWord 8 0b00111101 = some (.displayOn true) := by decide
theorem test_decode_displayOff : decodeTableWord 8 0b00111100 = some (.displayOn false) := by decide
theorem test_decode_startLine : decodeTableWord 16 0b0100000001000000 = some (.startLine 64) := by decide
theorem test_decode_displayControl_adc :
    decodeTableWord 8 0b01100100 = some (.displayControl false true false false) := by decide
theorem test_decode_displayControl_shl_eon :
    decodeTableWord 8 0b01101010 = some (.displayControl true false true false) := by decide
theorem test_decode_ayWindow : decodeTableWord 24 0b011101000000111100000000 = some (.ayWindow 0x0F 0x00) := by decide
theorem test_decode_axWindow : decodeTableWord 24 0b011101010100100001111111 = some (.axWindow 0x48 0x7F) := by decide
theorem test_decode_swReset : decodeTableWord 8 0b01110110 = some .swReset := by decide
theorem test_decode_duty : decodeTableWord 16 0b1001000010000000 = some (.duty 128) := by decide
theorem test_decode_contrast : decodeTableWord 16 0b1011000101101110 = some (.contrast 110) := by decide
theorem test_decode_axAddress : decodeTableWord 16 0b1100000001111111 = some (.axAddress 0x7F) := by decide
theorem test_decode_booster : decodeTableWord 8 0b11111110 = some (.booster 2) := by decide

/-- The examples of R68 of byte values that are no Command. -/
theorem test_decode_refuses_unlisted_bytes :
    [0x00, 0x02, 0x32, 0x34, 0x3E, 0x3F, 0x41, 0x70, 0x71, 0x72, 0x73, 0x77, 0xB0, 0xC1, 0xF8, 0xF9, 0xFA, 0xFB].all
      (fun b : Byte => decide (decode [b, 0, 0] = .error (.notACommand b))) = true := by decide

/-- R69: a parameter bit the mask removes is never sent; R65: no trailing byte, no missing one. -/
theorem test_decode_refuses_other_forms :
    decodeFrame [0x74, 0x00, 0x20] = .error (.neverSent 0x74 0x20) ∧
    decodeFrame [0x3C, 0x00] = .error (.trailing [0x00]) ∧ decodeFrame [0x75, 0x00] = .error (.truncated 0x75) ∧
    decodeFrame [] = .error .empty ∧ decodeArray [0x76, 0x01, 0x00] = .error (.trailing [0x01, 0x00]) := by decide

/-! ### Encoding: the corners of V1 -/

theorem test_encode_ayAddress : (encode (.ayAddress 0x20), encode (.ayAddress 0xE5), encode (.ayAddress 0xFF)) =
    ([0x01, 0x00], [0x01, 0x05], [0x01, 0x1F]) := by decide
theorem test_encode_bias : (encode (.bias 0x40), encode (.bias 0xFF)) = ([0x30, 0x00], [0x30, 0x3F]) := by decide
theorem test_encode_voltageClock : (encode (.voltageClock 0x7F), encode (.voltageClock 0xC0)) =
    ([0x31, 0x3F], [0x31, 0x00]) := by decide
theorem test_encode_powerControl : encode (.powerControl 0xFF) = [0x33, 0xFF] := by decide
theorem test_encode_displayOn : (encode (.displayOn false), encode (.displayOn true)) = ([0x3C], [0x3D]) := by decide
theorem test_encode_startLine : (encode (.startLine 64), encode (.startLine 0xFF)) =
    ([0x40, 0x40], [0x40, 0xFF]) := by decide
theorem test_encode_displayControl :
    (encode (.displayControl true false false false), encode (.displayControl false true false false),
      encode (.displayControl false false true false), encode (.displayControl false false false true)) =
    ([0x68], [0x64], [0x62], [0x61]) := by decide
theorem test_encode_ayWindow : (encode (.ayWindow 0x3F 0xE1), encode (.ayWindow 0x0F 0x00)) =
    ([0x74, 0x1F, 0x01], [0x74, 0x0F, 0x00]) := by decide
theorem test_encode_axWindow : (encode (.axWindow 0x80 0xFF), encode (.axWindow 200 255)) =
    ([0x75, 0x00, 0x7F], [0x75, 0x48, 0x7F]) := by decide
theorem test_encode_swReset : encode .swReset = [0x76] := by decide
theorem test_encode_duty : (encode (.duty 128), encode (.duty 0)) = ([0x90, 0x80], [0x90, 0x00]) := by decide
theorem test_encode_contrast : encode (.contrast 110) = [0xB1, 0x6E] := by decide
theorem test_encode_axAddress : (encode (.axAddress 0x80), encode (.axAddress 0xFF)) =
    ([0xC0, 0x00], [0xC0, 0x7F]) := by decide
theorem test_encode_booster : (encode (.booster 1), encode (.booster 4), encode (.booster 0xFF)) =
    ([0xFD], [0xFC], [0xFF]) := by decide

/-! ### One step -/

/-- A table word placed where the step fetches is decoded and sent: one call of its bytes, result `Ok` (log 9, 10). -/
theorem test_step_runs_fetched_word :
    view (step ((boot small [] [.ok] []).withFetchWord 24 0x74011F)) (fun s => (s.run.trace, s.run.results)) =
      some ([.cmd [0x74, 0x01, 0x1F] .ok], [.ok]) := by decide

/-- From reset itself, whatever the transport answers, the step goes on. -/
theorem test_step_runs_word_at_reset :
    (view (step (State.reset.withFetchWord 16 0x900F)) (fun _ => ())).isSome = true := rfl

/-- V2: a failing send, no retry, the transport's value. -/
theorem test_send_fault :
    view (step (boot small [.op (.send (.contrast 110)), .op .clear] [.fault t7] []))
      (fun s => (s.run.trace, s.run.results, s.run.running, s.run.requests)) =
      some ([.cmd [0xB1, 0x6E] (.fault t7)], [.err (.transport t7)], none, [.op .clear]) := by decide

/-- V2: encode(Duty(0)) = ([0x90, 0x00, 0x00], 2), no event. -/
theorem test_encode_op :
    view (step (boot small [.op (.encode (.duty 0))] [] [])) (fun s => (s.run.trace, s.run.results)) =
      some ([], [.encoded [0x90, 0x00, 0x00] 2]) := by decide

/-- R101, R102 step 0: the pin goes high; SWReset is sent; both go on at step 1. -/
theorem test_reset_and_init_begin :
    view (step (boot small [.op .reset] [] [.ok])) (fun s => (s.run.trace, s.stepIdx, s.run.running)) =
      some ([.pin .high .ok], 1, some .reset) ∧
    view (step (boot small [.op .init] [.ok] [])) (fun s => (s.run.trace, s.stepIdx, s.run.running)) =
      some ([.cmd [0x76] .ok], 1, some .init) := by decide

/-- R102 step 8, P4: PowerControl(0x2C) fails; `step` stays at 8. -/
theorem test_init_fault_at_step_8 :
    view (step (during small .init 8 [.fault t7])) (fun s => (s.run.trace, s.stepIdx, s.run.results)) =
      some ([.cmd [0x33, 0x2C] (.fault t7)], 8, [.err (.transport t7)]) := by decide

/-- R102's table, read from its columns: the bytes of each send. -/
theorem test_init_calls_match_table :
    initCalls.map (fun c => match c with | .send i => Event.cmd (encode i) .ok | .delay ms => .wait ms | _ => .wait 0) =
      initEvents := by decide

/-- V5: draw of an empty slice is one call. -/
theorem test_draw_empty :
    view (step (boot smallBasic [.op (.draw [])] [.ok] [])) (fun s => (s.run.trace, s.run.results)) =
      some ([.data [] .ok], [.ok]) := by decide

/-- V6, row (200,5), (255,9): the four Commands' bytes. -/
theorem test_set_draw_area_outside :
    (setDrawAreaCalls 200 5 255 9).map (fun c => match c with | .send i => encode i | _ => []) =
      [[0x74, 0x19, 0x1F], [0x75, 0x48, 0x7F], [0xC0, 0x05], [0x01, 0x19]] := by decide

/-- V8: (5, 9) is bit 1 of byte 133, (127, 127) bit 7 of byte 2047. -/
theorem test_set_pixel_bytes :
    view (step (full [(133, 0x05)] [.op (.setPixel 5 9 true)])) (·.fb) = some [(133, 0x07)] ∧
    view (step (full [(200, 0xFF)] [.op (.setPixel 72 11 false)])) (·.fb) = some [(200, 0xF7)] ∧
    view (step (full [(2047, 0x01)] [.op (.setPixel 127 127 true)])) (·.fb) = some [(2047, 0x81)] := by decide

/-- V8: (128, 0), in the set where the two bound tests differ, and a huge column are no-ops (conflict C2). -/
theorem test_set_pixel_outside :
    view (step (full [(128, 0x00)] [.op (.setPixel 128 0 true)])) (fun s => (s.fb, s.run.results)) =
      some ([(128, 0x00)], [.ok]) ∧
    view (step (full [] [.op (.setPixel 1000000000000 3 true)])) (fun s => (s.fb, s.run.results)) =
      some ([], [.ok]) := by decide

/-- R46: the last chunk carries what is left; no padding. -/
theorem test_flush_last_chunk :
    view (step { during small .flush 1 [.ok] with fb := [(4, 0xAA), (5, 0xBB)] })
      (fun s => (s.run.trace, s.run.results, s.run.running)) =
      some ([.data [0xAA, 0xBB] .ok], [.ok], none) := by decide

/-- V10: an event outside the box is dropped and the rest is still to come. -/
theorem test_draw_pixels_drops_outside :
    view (step (boot small [.op (.drawPixels [⟨-1, 3, true⟩, ⟨0, 0, true⟩])] [] [])) (fun s => (s.fb, s.run.running)) =
      some ([], some (.drawPixels [⟨0, 0, true⟩])) := by decide

/-- V11, R128: the buffer operations have no meaning with MODE = Basic. -/
theorem test_basic_refuses :
    (match step (boot smallBasic [.op .flush] [] []) with
      | .refused (.absentInBasic .flush) => true
      | _ => false) = true := by decide

/-- R68: bytes that are no Command are refused by name. -/
theorem test_step_refuses_unlisted_bytes :
    (match step (boot small [.encoded [0x00, 0x00, 0x00]] [] []) with
      | .refused (.notACommand (.notACommand b)) => b == 0x00
      | _ => false) = true := by decide

/-- R10, R31: the step from the parameters, the block's record and the inputs alone; one failing answer, its event and its
result come out. -/
theorem test_block_step :
    (match blockStep small (some .init) ⟨[], 8⟩ ⟨none, .fault t7, .ok⟩ with
      | .next p => decide (p = ⟨⟨[], 8⟩, none, [.cmd [0x33, 0x2C] (.fault t7)], [.err (.transport t7)]⟩)
      | _ => false) = true := by decide

/-- R144, R101: a failed call of the level the line is at leaves it there, one of the other level leaves it unknown, and
neither is a level driven. -/
theorem test_failed_pin_call :
    resetLine [.pin .high .ok, .pin .high (.fault e9)] = .driven .high ∧
    resetLine [.pin .high .ok, .wait 1, .pin .low (.fault e9)] = .unknown ∧
    lastDriven [.pin .high .ok, .wait 1, .pin .low (.fault e9)] = some .high := by decide

/-! ### A state that meets the hypotheses of each statement -/

theorem witness_commands_complete : (boot small [] [.ok] []).nextTx = .ok := rfl

theorem witness_failed_command : (boot small [] [.fault t7] []).nextTx = .fault t7 := rfl

theorem witness_decoding : (Instr.ayWindow 0x1F 0x1F).wf = true ∧ decodeFrame [0x74, 0x1F, 0x1F] = .ok (.ayWindow 0x1F 0x1F) ∧
    (tableRow (.ayWindow 0 0)).admits [0x74, 0x1F, 0x1F] = true ∧
    decode [0x00, 0, 0] = .error (.notACommand 0x00) := by decide

theorem witness_step_runs_encoded : (boot small [.encoded [0x90, 0x80, 0x00]] [.ok] []).run.running = none ∧
    decodeArray [0x90, 0x80, 0x00] = .ok (.duty 0x80) := by decide

theorem witness_step_runs_in_init :
    (during small .init 23 [.ok]).run.running = some .init ∧ initCalls[23]? = some (.send (.displayOn true)) := by decide

theorem witness_step_runs_in_draw_area :
    (during small (.setDrawArea 8 16 23 31) 2 [.ok]).run.running = some (.setDrawArea 8 16 23 31) ∧
    (setDrawAreaCalls 8 16 23 31)[2]? = some (.send (.axAddress 16)) := by decide

theorem witness_invokes_send : (boot small [.op (.send .swReset)] [.ok] []).invokes (.send .swReset) [] ∧
    (boot small [.op (.send .swReset)] [.ok] []).txAnswer 0 = .ok := ⟨⟨rfl, rfl⟩, rfl⟩

theorem witness_invokes_send_fault : (boot small [.op (.send .swReset)] [.fault t7] []).invokes (.send .swReset) [] ∧
    (boot small [.op (.send .swReset)] [.fault t7] []).txAnswer 0 = .fault t7 := ⟨⟨rfl, rfl⟩, rfl⟩

theorem witness_invokes_encode :
    (boot small [.op (.encode .swReset)] [] []).invokes (.encode .swReset) [] := ⟨rfl, rfl⟩

theorem witness_command_call : ∃ t, step (boot small [.op (.send .swReset)] [.ok] []) = .next t ∧
    t.run.trace = (boot small [.op (.send .swReset)] [.ok] []).run.trace ++ [.cmd [0x76] .ok] := ⟨_, rfl, rfl⟩

theorem witness_reset_ok : (boot small [.op .reset] [] [.ok, .ok, .ok]).invokes .reset [] ∧
    ∀ k < 3, (boot small [.op .reset] [] [.ok, .ok, .ok]).pinAnswer k = .ok := ⟨⟨rfl, rfl⟩, by decide⟩

theorem witness_reset_fault_0 : (boot small [.op .reset] [] [.fault e9]).invokes .reset [] ∧
    (boot small [.op .reset] [] [.fault e9]).pinAnswer 0 = .fault e9 := ⟨⟨rfl, rfl⟩, rfl⟩

theorem witness_reset_fault_2 : (boot small [.op .reset] [] [.ok, .fault e9]).invokes .reset [] ∧
    (boot small [.op .reset] [] [.ok, .fault e9]).pinAnswer 0 = .ok ∧
    (boot small [.op .reset] [] [.ok, .fault e9]).pinAnswer 1 = .fault e9 := ⟨⟨rfl, rfl⟩, rfl, rfl⟩

theorem witness_reset_fault_4 : (boot small [.op .reset] [] [.ok, .ok, .fault e9]).invokes .reset [] ∧
    (boot small [.op .reset] [] [.ok, .ok, .fault e9]).pinAnswer 0 = .ok ∧
    (boot small [.op .reset] [] [.ok, .ok, .fault e9]).pinAnswer 1 = .ok ∧
    (boot small [.op .reset] [] [.ok, .ok, .fault e9]).pinAnswer 2 = .fault e9 := ⟨⟨rfl, rfl⟩, rfl, rfl, rfl⟩

theorem witness_init_ok : (boot small [.op .init] (List.replicate 19 .ok) []).invokes .init [] ∧
    ∀ k < 19, (boot small [.op .init] (List.replicate 19 .ok) []).txAnswer k = .ok := ⟨⟨rfl, rfl⟩, by decide⟩

/-- The first and the last send of `init` can fail. -/
theorem witness_init_fault :
    (initSendSteps[0]? = some 0 ∧ (boot small [.op .init] [.fault t7] []).txAnswer 0 = .fault t7) ∧
    (boot small [.op .init] [.fault t7] []).invokes .init [] ∧
    (boot small [.op .init] (List.replicate 18 .ok ++ [.fault t7]) []).invokes .init [] ∧ initSendSteps[18]? = some 23 ∧
    (∀ k < 18, (boot small [.op .init] (List.replicate 18 .ok ++ [.fault t7]) []).txAnswer k = .ok) ∧
    (boot small [.op .init] (List.replicate 18 .ok ++ [.fault t7]) []).txAnswer 18 = .fault t7 :=
  ⟨by decide, ⟨rfl, rfl⟩, ⟨rfl, rfl⟩, by decide, by decide, rfl⟩

theorem witness_draw : (boot small [.op (.draw [1])] [.ok] []).invokes (.draw [1]) [] ∧
    (boot small [.op (.draw [1])] [.ok] []).txAnswer 0 = .ok := ⟨⟨rfl, rfl⟩, rfl⟩

theorem witness_draw_fault : (boot small [.op (.draw [1])] [.fault t7] []).invokes (.draw [1]) [] ∧
    (boot small [.op (.draw [1])] [.fault t7] []).txAnswer 0 = .fault t7 := ⟨⟨rfl, rfl⟩, rfl⟩

theorem witness_set_display_on : (boot small [.op (.setDisplayOn true)] [.ok] []).invokes (.setDisplayOn true) [] ∧
    (boot small [.op (.setDisplayOn true)] [.ok] []).txAnswer 0 = .ok := ⟨⟨rfl, rfl⟩, rfl⟩

theorem witness_set_display_on_fault :
    (boot small [.op (.setDisplayOn false)] [.fault t7] []).invokes (.setDisplayOn false) [] ∧
    (boot small [.op (.setDisplayOn false)] [.fault t7] []).txAnswer 0 = .fault t7 := ⟨⟨rfl, rfl⟩, rfl⟩

theorem witness_draw_area :
    (boot small [.op (.setDrawArea 8 16 23 31)] [.ok, .ok, .ok, .ok] []).invokes (.setDrawArea 8 16 23 31) [] ∧
    ∀ k < 4, (boot small [.op (.setDrawArea 8 16 23 31)] [.ok, .ok, .ok, .ok] []).txAnswer k = .ok :=
  ⟨⟨rfl, rfl⟩, by decide⟩

theorem witness_draw_area_fault :
    (boot small [.op (.setDrawArea 8 16 23 31)] [.ok, .ok, .ok, .fault t7] []).invokes (.setDrawArea 8 16 23 31) [] ∧
    (boot small [.op (.setDrawArea 8 16 23 31)] [.fault t7] []).invokes (.setDrawArea 8 16 23 31) [] ∧
    (∀ k < 3, (boot small [.op (.setDrawArea 8 16 23 31)] [.ok, .ok, .ok, .fault t7] []).txAnswer k = .ok) ∧
    (boot small [.op (.setDrawArea 8 16 23 31)] [.ok, .ok, .ok, .fault t7] []).txAnswer 3 = .fault t7 ∧
    (boot small [.op (.setDrawArea 8 16 23 31)] [.fault t7] []).txAnswer 0 = .fault t7 :=
  ⟨⟨rfl, rfl⟩, ⟨rfl, rfl⟩, by decide, rfl, rfl⟩

theorem witness_clear : (boot small [.op .clear] [] []).sound ∧ (boot small [.op .clear] [] []).cfg.mode = .buffered ∧
    (boot small [.op .clear] [] []).invokes .clear [] := ⟨by decide, rfl, rfl, rfl⟩

/-- The last pixel of the display. -/
theorem witness_set_pixel : small.wf ∧ (boot small [.op (.setPixel 2 15 true)] [] []).cfg.mode = .buffered ∧
    (boot small [.op (.setPixel 2 15 true)] [] []).invokes (.setPixel 2 15 true) [] ∧ 2 < small.width ∧
    15 < small.height := ⟨by decide, rfl, ⟨rfl, rfl⟩, by decide, by decide⟩

/-- The first column and the first row outside. -/
theorem witness_set_pixel_outside :
    (boot small [.op (.setPixel 3 0 true)] [] []).invokes (.setPixel 3 0 true) [] ∧ ¬(3 < small.width ∧ 0 < small.height) ∧
    (boot small [.op (.setPixel 0 16 true)] [] []).invokes (.setPixel 0 16 true) [] ∧
    ¬(0 < small.width ∧ 16 < small.height) := ⟨⟨rfl, rfl⟩, by decide, ⟨rfl, rfl⟩, by decide⟩

/-- A state with two `set_pixel` requests and the pixel's byte written, the pixel off. -/
def setThenClear : State :=
  { boot small [.op (.setPixel 1 8 true), .op (.setPixel 1 8 false)] [] [] with fb := [(4, 0xFE)] }

theorem witness_set_then_clear : setThenClear.cfg.wf ∧ setThenClear.cfg.mode = .buffered ∧
    setThenClear.invokes (.setPixel 1 8 true) [.op (.setPixel 1 8 false)] ∧ 1 < setThenClear.cfg.width ∧
    8 < setThenClear.cfg.height ∧ setThenClear.pixelOn 1 8 = false :=
  ⟨by decide, rfl, ⟨rfl, rfl⟩, by decide, by decide, by decide⟩

theorem witness_flush : small.wf ∧ (boot small [.op .flush] [.ok, .ok] []).cfg.mode = .buffered ∧
    (boot small [.op .flush] [.ok, .ok] []).invokes .flush [] ∧ HostOp.flush.callCount small = 2 ∧
    (∀ k < 2, (boot small [.op .flush] [.ok, .ok] []).txAnswer k = .ok) :=
  ⟨by decide, rfl, ⟨rfl, rfl⟩, by decide, by decide⟩

theorem witness_flush_fault : small.wf ∧ small.mode = .buffered ∧ 1 < HostOp.flush.callCount small ∧
    (boot small [.op .flush] [.fault t7] []).invokes .flush [] ∧ (boot small [.op .flush] [.ok, .fault t7] []).invokes .flush [] ∧
    (∀ k < 1, (boot small [.op .flush] [.ok, .fault t7] []).txAnswer k = .ok) ∧
    (boot small [.op .flush] [.ok, .fault t7] []).txAnswer 1 = .fault t7 ∧
    (boot small [.op .flush] [.fault t7] []).txAnswer 0 = .fault t7 :=
  ⟨by decide, rfl, by decide, ⟨rfl, rfl⟩, ⟨rfl, rfl⟩, by decide, rfl, rfl⟩

theorem witness_flush_twice : small.wf ∧ small.mode = .buffered ∧
    (boot small [.op .flush, .op .flush] [.ok, .ok, .ok, .ok] []).invokes .flush [.op .flush] ∧
    ∀ k < 2 * HostOp.flush.callCount small,
      (boot small [.op .flush, .op .flush] [.ok, .ok, .ok, .ok] []).txAnswer k = .ok := ⟨by decide, rfl, ⟨rfl, rfl⟩, by decide⟩

/-- A `flush` at its second, shorter chunk. -/
theorem witness_flush_step : (during small .flush 1 [.ok]).sound ∧
    fetch (during small .flush 1 [.ok]) = .run .flush (during small .flush 1 [.ok]) ∧
    ∃ t, step (during small .flush 1 [.ok]) = .next t := ⟨by decide, rfl, _, rfl⟩

/-- The small machine with another chunk size. -/
def smallChunk (n : Nat) : Config := { width := 3, height := 16, chunk := n, mode := .buffered }

/-- A `flush` whose one chunk is exactly as large as the buffer, and one whose chunk is larger. -/
theorem witness_flush_one_chunk :
    ((smallChunk 6).bytes = 6 ∧ (during (smallChunk 6) .flush 0 [.ok]).sound ∧
      ∃ t, step (during (smallChunk 6) .flush 0 [.ok]) = .next t) ∧
    ((smallChunk 9).bytes ≤ 9 ∧ (during (smallChunk 9) .flush 0 [.ok]).sound ∧
      ∃ t, step (during (smallChunk 9) .flush 0 [.ok]) = .next t) :=
  ⟨⟨by decide, by decide, _, rfl⟩, by decide, by decide, _, rfl⟩

theorem witness_draw_pixels : small.wf ∧ small.mode = .buffered ∧ 0 < small.width ∧ 1 < small.height ∧
    (boot small [.op (.drawPixels [⟨0, 0, true⟩, ⟨-1, 3, true⟩, ⟨0, 0, false⟩])] [] []).invokes
      (.drawPixels [⟨0, 0, true⟩, ⟨-1, 3, true⟩, ⟨0, 0, false⟩]) [] ∧
    lastNaming 0 0 [⟨0, 0, true⟩, ⟨-1, 3, true⟩, ⟨0, 0, false⟩] = some false ∧
    lastNaming 0 1 [⟨0, 0, true⟩, ⟨-1, 3, true⟩, ⟨0, 0, false⟩] = none :=
  ⟨by decide, rfl, by decide, by decide, ⟨rfl, rfl⟩, by decide, by decide⟩

theorem witness_buffer_step : ∃ u t, fetch (boot small [.op .clear] [] []) = .run .clear u ∧
    step (boot small [.op .clear] [] []) = .next t ∧ t.fb ≠ (boot small [.op .clear] [] []).fb :=
  ⟨_, _, rfl, rfl, by decide⟩

theorem witness_basic : (boot smallBasic [.op .flush] [] []).cfg.mode = .basic ∧
    (boot smallBasic [.op .flush] [] []).invokes .flush [] ∧
    (boot smallBasic [.op .init] [] []).invokes .init [] := ⟨rfl, ⟨rfl, rfl⟩, rfl, rfl⟩

/-- A failing call, of the transport and of the pin. -/
theorem witness_failing_call :
    (∃ t, step (during small .init 8 [.fault t7]) = .next t ∧
      t.run.trace = (during small .init 8 [.fault t7]).run.trace ++ [.cmd [0x33, 0x2C] (.fault t7)] ∧
      t.run.results = (during small .init 8 [.fault t7]).run.results ++ [.err (.transport t7)]) ∧
    (∃ t, step (boot small [.op .reset] [] [.fault e9]) = .next t ∧
      t.run.results = (boot small [.op .reset] [] [.fault e9]).run.results ++ [.err (.pin e9)]) :=
  ⟨⟨_, rfl, rfl, rfl⟩, _, rfl, rfl⟩

/-- The block after a good `reset`, about to make the first pin call of another. -/
def afterReset : State :=
  { boot small [.op .reset] [] [.fault e9] with
    run := { (boot small [.op .reset] [] [.fault e9]).run with trace := resetEvents } }

/-- A pin call that fails while the line is at its level. -/
theorem witness_fault_after_reset : resetLine afterReset.run.trace = .driven .high ∧
    Event.raised (.pin .high (.fault e9)) = some (.pin e9) ∧
    ∃ t, step afterReset = .next t ∧ t.run.trace = afterReset.run.trace ++ [.pin .high (.fault e9)] :=
  ⟨by decide, rfl, _, rfl, rfl⟩

theorem witness_idle : (boot small [] [] []).run.running = none ∧ (boot small [] [] []).run.requests = [] := ⟨rfl, rfl⟩

theorem witness_sound_step : (during small .init 23 [.ok]).sound ∧
    (∃ t, step (during small .init 23 [.ok]) = .next t ∧ ∀ f, t.run.results ≠ [] ++ [.err f]) ∧
    0 < HostOp.init.callCount small := ⟨by decide, ⟨_, rfl, by intro f h; cases h⟩, by decide⟩

/-- Both refusals of a sound state. -/
theorem witness_sound_refusal : (boot smallBasic [.op .clear] [] []).sound ∧
    (boot small [.encoded [0x00]] [] []).sound ∧
    step (boot smallBasic [.op .clear] [] []) = .refused (.absentInBasic .clear) ∧
    step (boot small [.encoded [0x00]] [] []) = .refused (.notACommand (.notACommand 0x00)) :=
  ⟨by decide, by decide, rfl, rfl⟩

theorem witness_operation_ends : (boot small [.op .init] [] []).sound ∧ (boot small [.op .init] [] []).invokes .init [] ∧
    HostOp.init.availableIn small.mode = true := ⟨by decide, ⟨rfl, rfl⟩, rfl⟩

end Sys2Proof.Tests
end

/-! SUPPORT. The whole machine: what one step records, that it keeps a state sound, and that it is the block's step with the
environment's inputs. -/

namespace Sys2Proof.Machine

/-! ### The steps that run no operation -/

theorem step_idle {s : State} (hr : s.run.running = none) (hq : s.run.requests = []) : step s = .next s := by
  simp [step, sequencerStep, fetch, hr, hq]

theorem step_absentInBasic {s : State} {o : HostOp} {rest : List Request} (h : s.invokes o rest)
    (ha : o.availableIn s.cfg.mode = false) : step s = .refused (.absentInBasic o) := by
  simp [step, sequencerStep, fetch, h.1, h.2, ha]

theorem step_notACommand {s : State} {bytes : List Byte} {rest : List Request} {e : DecodeError}
    (hr : s.run.running = none) (hq : s.run.requests = .encoded bytes :: rest) (hd : decodeArray bytes = .error e) :
    step s = .refused (.notACommand e) := by
  simp [step, sequencerStep, fetch, hr, hq, hd]

/-! ### What one outward call records -/

/-- From `s` to `t` one outward call was made and recorded as `e`: accepted, so that the operation goes on and `step` is one
further (R23), or failed, so that the operation ended with `Err` and `step` is where it was (R143 to R145). -/
def State.recordsCall (s t : State) (e : Event) : Prop :=
  t.run.trace = s.run.trace ++ [e] ∧
  ((t.run.running = s.run.running ∧ t.stepIdx = s.stepIdx + 1 ∧ t.run.results = s.run.results) ∨
    ∃ f, t.run.running = none ∧ t.stepIdx = s.stepIdx ∧ t.run.results = s.run.results ++ [.err f])

theorem State.txCmd_recordsCall (s : State) (bytes : List Byte) :
    s.recordsCall (s.txCmd bytes) (.cmd bytes s.nextTx) := by
  cases h : s.nextTx with
  | ok => simp [State.txCmd_ok h, State.recordsCall]
  | fault t => simp [State.txCmd_fault h, State.recordsCall]

theorem State.txData_recordsCall (s : State) (bytes : List Byte) :
    s.recordsCall (s.txData bytes) (.data bytes s.nextTx) := by
  cases h : s.nextTx with
  | ok => simp [State.txData_ok h, State.recordsCall]
  | fault t => simp [State.txData_fault h, State.recordsCall]

theorem State.pinSet_recordsCall (s : State) (level : Level) :
    s.recordsCall (s.pinSet level) (.pin level s.nextPin) := by
  cases h : s.nextPin with
  | ok => simp [State.pinSet_ok h, State.recordsCall]
  | fault e => simp [State.pinSet_fault h, State.recordsCall]

theorem State.delayMs_recordsCall (s : State) (ms : Nat) : s.recordsCall (s.delayMs ms) (.wait ms) :=
  ⟨rfl, .inl ⟨rfl, rfl, rfl⟩⟩

/-- Every call of a sequence is recorded by exactly one event. -/
theorem perform_recordsCall {c : Call} {s t : State} (h : perform c s = .next t) : ∃ e, s.recordsCall t e := by
  rcases perform_next h with
    ⟨i, -, rfl⟩ | ⟨bytes, -, rfl⟩ | ⟨_, _, bytes, -, -, rfl⟩ | ⟨level, -, rfl⟩ | ⟨ms, -, rfl⟩
  · exact ⟨_, s.txCmd_recordsCall _⟩
  · exact ⟨_, s.txData_recordsCall bytes⟩
  · exact ⟨_, s.txData_recordsCall bytes⟩
  · exact ⟨_, s.pinSet_recordsCall level⟩
  · exact ⟨_, s.delayMs_recordsCall ms⟩

/-! ### A step appends to the trace and the results -/

/-- From `s` to `t` the trace and the results have grown by at most one element each (R11, R52). -/
def State.growsByOne (s t : State) : Prop :=
  ∃ es rs, t.run.trace = s.run.trace ++ es ∧ es.length ≤ 1 ∧ t.run.results = s.run.results ++ rs ∧ rs.length ≤ 1

theorem State.growsByOne_refl (s : State) : s.growsByOne s := ⟨[], [], by simp⟩

theorem State.growsByOne_finish (s : State) (r : OpResult) : s.growsByOne (s.finish r) := ⟨[], [r], by simp⟩

/-- A call records one event, and one result only where it failed. -/
theorem State.recordsCall.growsByOne {s t : State} {e : Event} (h : s.recordsCall t e) : s.growsByOne t := by
  obtain ⟨htrace, ⟨-, -, hresults⟩ | ⟨f, -, -, hresults⟩⟩ := h
  · exact ⟨[e], [], by simp [htrace, hresults]⟩
  · exact ⟨[e], [.err f], by simp [htrace, hresults]⟩

/-- The last call of an operation was accepted, so the one result is the `Ok` of its end. -/
theorem State.recordsCall.growsByOne_finish {s t : State} {e : Event} (h : s.recordsCall t e)
    (hr : t.run.running.isSome) (r : OpResult) : s.growsByOne (t.finish r) := by
  obtain ⟨htrace, ⟨-, -, hresults⟩ | ⟨f, hnone, -, -⟩⟩ := h
  · exact ⟨[e], [r], by simp [htrace, hresults]⟩
  · simp [hnone] at hr

theorem runOp_growsByOne {o : HostOp} {u t : State} (h : runOp o u = .next t) : u.growsByOne t := by
  rcases runOp_next h with ⟨-, -, r, rfl, -⟩ | ⟨c, v, -, hp, hv⟩ | ⟨-, m, -, -, rfl | ⟨e, es, -, -, rfl⟩⟩
  · exact u.growsByOne_finish r
  · obtain ⟨e, hcall⟩ := perform_recordsCall hp
    rcases hv with ⟨rfl, -⟩ | ⟨rfl, hr, -⟩
    · exact hcall.growsByOne
    · exact hcall.growsByOne_finish hr .ok
  · exact (u.withFb m).growsByOne_finish .ok
  · exact u.growsByOne_refl

/-- Settles O54: fetching leaves trace and results as they are, and one step of an operation records at most one call. -/
theorem stepMakesAtMostOneEvent : Obligations.StepMakesAtMostOneEvent := by
  intro s t h
  rcases step_next h with ⟨-, rfl⟩ | ⟨o, u, hf, ho⟩
  · exact t.growsByOne_refl
  · obtain ⟨-, -, -, htrace, hresults, -⟩ := fetch_run_frame hf
    obtain ⟨es, rs, h⟩ := runOp_growsByOne ho
    exact ⟨es, rs, by rwa [htrace, hresults] at h⟩

/-! ### Every step keeps the state sound -/

/-- The part of soundness that speaks of the parameters and the buffer alone (R5, R21, R33). -/
def Config.bufferSound (c : Config) (m : Memory) : Prop :=
  c.wf ∧ Memory.wf m ∧ Memory.below c.bytes m ∧ (c.mode = .basic → m = [])

theorem State.sound_iff (s : State) :
    s.sound ↔ Config.bufferSound s.cfg s.fb ∧
      ∀ o, s.run.running = some o → o.underWay s.cfg s.stepIdx = true := by
  simp only [State.sound, Config.bufferSound, Option.all_eq_true, and_assoc]

/-- Between operations only the parameters and the buffer matter. -/
theorem State.sound_of_not_running {s : State} (hb : Config.bufferSound s.cfg s.fb) (hr : s.run.running = none) :
    s.sound :=
  s.sound_iff.2 ⟨hb, by simp [hr]⟩

/-- An operation that has just begun is under way (R23: `step` is 0). -/
theorem HostOp.underWay_zero {c : Config} {o : HostOp} (h : o.availableIn c.mode = true) : o.underWay c 0 = true := by
  simp [HostOp.underWay, h]

/-- The sequence of an operation has no call past its count (R23, R46): a call at a position means that the position is below
the count. -/
theorem HostOp.lt_callCount {c : Config} {o : HostOp} {k : Nat} (hchunk : 1 ≤ c.chunk) (h : (o.callAt c k).isSome) :
    k < o.callCount c := by
  cases o with
  | send i => simpa [HostOp.callAt, HostOp.callCount, sendCalls] using h
  | reset => simpa [HostOp.callAt, HostOp.callCount, resetCalls] using h
  | init => simpa [HostOp.callAt, HostOp.callCount, initCalls] using h
  | draw buffer => simpa [HostOp.callAt, HostOp.callCount, drawCalls] using h
  | setDisplayOn on => simpa [HostOp.callAt, HostOp.callCount, setDisplayOnCalls] using h
  | setDrawArea sx sy ex ey => simpa [HostOp.callAt, HostOp.callCount, setDrawAreaCalls] using h
  | flush =>
    have hstart : k * c.chunk < c.bytes := by
      by_contra hge
      simp [HostOp.callAt, flushCalls, chunkStart, hge] at h
    refine (Nat.le_div_iff_mul_le hchunk).2 ?_
    rw [Nat.succ_mul]
    omega
  | encode i => simp [HostOp.callAt] at h
  | clear => simp [HostOp.callAt] at h
  | setPixel x y value => simp [HostOp.callAt] at h
  | drawPixels events => simp [HostOp.callAt] at h

/-- An operation that goes on to a further call stays under way. -/
theorem HostOp.underWay_of_callAt {c : Config} {o : HostOp} {j k : Nat} (hchunk : 1 ≤ c.chunk)
    (hj : o.underWay c j = true) (hk : (o.callAt c k).isSome) : o.underWay c k = true := by
  have hlt := HostOp.lt_callCount hchunk hk
  simp only [HostOp.underWay, Bool.and_eq_true, decide_eq_true_eq] at hj ⊢
  exact ⟨hj.1, by omega⟩

/-- An operation that writes the buffer runs in Buffered mode only (R128). -/
theorem HostOp.buffered_of_drawsInBuffer {c : Config} {o : HostOp} {k : Nat} (hd : o.drawsInBuffer = true)
    (hw : o.underWay c k = true) : c.mode = .buffered := by
  have ha : o.availableIn c.mode = true := (Bool.and_eq_true_iff.1 hw).1
  cases o with
  | clear => exact eq_of_beq ha
  | setPixel x y value => exact eq_of_beq ha
  | drawPixels events => exact eq_of_beq ha
  | encode | send | reset | init | draw | setDisplayOn | setDrawArea | flush => cases hd

theorem runOp_cfg {o : HostOp} {u t : State} (h : runOp o u = .next t) : t.cfg = u.cfg := by
  rcases runOp_next h with ⟨-, -, r, rfl, -⟩ | ⟨c, v, -, hp, hv⟩ | ⟨-, m, -, -, rfl | ⟨e, es, -, -, rfl⟩⟩
  · rfl
  · obtain ⟨-, hcfg, -⟩ := perform_frame hp
    rcases hv with ⟨rfl, -⟩ | ⟨rfl, -, -⟩ <;> exact hcfg
  · rfl
  · rfl

/-- No step changes the parameters (R5). -/
theorem step_cfg {s t : State} (h : step s = .next t) : t.cfg = s.cfg := by
  rcases step_next h with ⟨-, rfl⟩ | ⟨o, u, hf, ho⟩
  · rfl
  · obtain ⟨-, hcfg, -⟩ := fetch_run_frame hf
    exact (runOp_cfg ho).trans hcfg

/-- The state an operation runs from is sound: it was, or the operation begins in it at position 0 in a mode that has it. -/
theorem fetch_run_sound {s u : State} {o : HostOp} (hs : s.sound) (h : fetch s = .run o u) : u.sound := by
  rcases fetch_run h with ⟨-, rfl⟩ | ⟨-, ha, rest, rfl, -⟩
  · exact hs
  · refine (State.sound_iff _).2 ⟨(s.sound_iff.1 hs).1, fun p hp => ?_⟩
    obtain rfl : o = p := Option.some.inj hp
    exact HostOp.underWay_zero ha

/-- A call from a sound state whose operation has a further call leads to a sound state. -/
theorem perform_sound {c : Call} {o : HostOp} {u v : State} (hu : u.sound) (ho : u.run.running = some o)
    (hp : perform c u = .next v) (hv : v.run.running = none ∨ (o.callAt v.cfg v.stepIdx).isSome) : v.sound := by
  obtain ⟨hbuffer, hrunning⟩ := u.sound_iff.1 hu
  obtain ⟨hfb, hcfg, -⟩ := perform_frame hp
  rw [← hfb, ← hcfg] at hbuffer
  rcases hv with hnone | hmore
  · exact State.sound_of_not_running hbuffer hnone
  · obtain ⟨e, -, ⟨hsame, -, -⟩ | ⟨f, hnone, -, -⟩⟩ := perform_recordsCall hp
    · refine v.sound_iff.2 ⟨hbuffer, fun p hvp => ?_⟩
      obtain rfl : o = p := Option.some.inj (ho.symm.trans (hsame.symm.trans hvp))
      obtain ⟨⟨-, -, -, -, -, hchunk⟩, -⟩ := hbuffer
      exact HostOp.underWay_of_callAt hchunk (hcfg ▸ hrunning o ho) hmore
    · exact State.sound_of_not_running hbuffer hnone

theorem runOp_sound {o : HostOp} {u t : State} (hu : u.sound) (ho : u.run.running = some o)
    (h : runOp o u = .next t) : t.sound := by
  obtain ⟨hbuffer, hrunning⟩ := u.sound_iff.1 hu
  rcases runOp_next h with ⟨-, -, r, rfl, -⟩ | ⟨c, v, -, hp, hv⟩ | ⟨hdraws, m, hwf, hbelow, ht⟩
  · exact State.sound_of_not_running hbuffer rfl
  · rcases hv with ⟨rfl, hmore⟩ | ⟨rfl, -, -⟩
    · exact perform_sound hu ho hp hmore
    · obtain ⟨hfb, hcfg, -⟩ := perform_frame hp
      exact State.sound_of_not_running (by simpa [hfb, hcfg] using hbuffer) rfl
  · have hmode := HostOp.buffered_of_drawsInBuffer hdraws (hrunning o ho)
    have hm : Config.bufferSound u.cfg m := by
      obtain ⟨hc, hfb, hin, -⟩ := hbuffer
      exact ⟨hc, hwf hfb, hbelow hin, by simp [hmode]⟩
    rcases ht with rfl | ⟨e, es, rfl, -, rfl⟩
    · exact State.sound_of_not_running hm rfl
    · refine (State.sound_iff _).2 ⟨hm, fun p hp => ?_⟩
      obtain rfl : HostOp.drawPixels es = p := Option.some.inj hp
      exact hrunning (.drawPixels (e :: es)) ho

/-- Settles O51: the state an operation runs from is sound, and one step of the operation keeps it so. -/
theorem stepKeepsSoundness : Obligations.StepKeepsSoundness := by
  intro s t hs h
  refine ⟨?_, step_cfg h⟩
  rcases step_next h with ⟨-, rfl⟩ | ⟨o, u, hf, ho⟩
  · exact hs
  · obtain ⟨-, -, hrunning, -⟩ := fetch_run_frame hf
    exact runOp_sound (fetch_run_sound hs hf) hrunning ho

theorem Config.thisHardware_wf : Config.thisHardware.wf := by
  simp [Config.thisHardware, Config.wf]

/-- Settles O50: the hardware's parameters meet R5, nothing has been written and no operation runs. -/
theorem resetIsSound : Obligations.ResetIsSound := by
  have hbelow : Memory.below State.reset.cfg.bytes State.reset.fb := by simp [State.reset, State.resetWith]
  exact State.sound_of_not_running ⟨Config.thisHardware_wf, reset_fb_wf, hbelow, fun _ => rfl⟩ rfl

/-! ### The step beside another past

A state reached from a record that holds the inputs alone is laid after any other record; each function of the machine commutes
with that, as long as the next answers are the same. -/

/-- `p`, whose record holds the inputs of one step alone, as that step stands after the record `r`: the answers its calls
took are taken from the lists of `r`, and its events and results come after those of `r`. -/
def State.after (p : State) (r : Run) : State :=
  { p with
    run :=
      { running := p.run.running
        requests := r.requests
        txAnswers := r.txAnswers.drop (p.run.trace.countP Event.ofTransport)
        pinAnswers := r.pinAnswers.drop (p.run.trace.countP Event.ofPin)
        txCalls := r.txCalls + p.run.trace.countP Event.ofTransport
        pinCalls := r.pinCalls + p.run.trace.countP Event.ofPin
        trace := r.trace ++ p.run.trace
        results := r.results ++ p.run.results } }

section

variable (p : State) (r : Run)

@[simp] theorem State.after_cfg : (p.after r).cfg = p.cfg := rfl
@[simp] theorem State.after_toBlock : (p.after r).toBlock = p.toBlock := rfl
@[simp] theorem State.after_running : (p.after r).run.running = p.run.running := rfl
@[simp] theorem State.after_fbRead (i : Nat) : (p.after r).fbRead i = p.fbRead i := rfl
@[simp] theorem State.after_memRead (a n : Nat) : (p.after r).memRead a n = p.memRead a n := rfl

theorem State.advance_after : p.advance.after r = (p.after r).advance := rfl

theorem State.withFb_after (m : Memory) : (p.withFb m).after r = (p.after r).withFb m := rfl

theorem State.withRunning_after (o : HostOp) : (p.withRunning o).after r = (p.after r).withRunning o := rfl

theorem State.finish_after (q : OpResult) : (p.finish q).after r = (p.after r).finish q := by
  simp [State.after, State.finish]

theorem State.raise_after (f : OpFault) : (p.raise f).after r = (p.after r).raise f := p.finish_after r (.err f)

theorem State.emit_takeTx_after {e : Event} (ht : e.ofTransport = true) (hp : e.ofPin = false) :
    (p.emit e).takeTx.after r = ((p.after r).emit e).takeTx := by
  simp [State.after, State.emit, State.takeTx, ht, hp, Nat.add_assoc]

theorem State.emit_takePin_after {e : Event} (ht : e.ofTransport = false) (hp : e.ofPin = true) :
    (p.emit e).takePin.after r = ((p.after r).emit e).takePin := by
  simp [State.after, State.emit, State.takePin, ht, hp, Nat.add_assoc]

theorem State.delayMs_after (ms : Nat) : (p.delayMs ms).after r = (p.after r).delayMs ms := by
  simp [State.after, State.delayMs, State.emit, State.advance, Event.ofTransport, Event.ofPin]

variable {p r}

theorem State.txCmd_after (ht : (p.after r).nextTx = p.nextTx) (bytes : List Byte) :
    (p.txCmd bytes).after r = (p.after r).txCmd bytes := by
  cases h : p.nextTx with
  | ok => rw [txCmd_ok h, txCmd_ok (ht.trans h), advance_after, emit_takeTx_after _ _ rfl rfl]
  | fault t => rw [txCmd_fault h, txCmd_fault (ht.trans h), raise_after, emit_takeTx_after _ _ rfl rfl]

theorem State.txData_after (ht : (p.after r).nextTx = p.nextTx) (bytes : List Byte) :
    (p.txData bytes).after r = (p.after r).txData bytes := by
  cases h : p.nextTx with
  | ok => rw [txData_ok h, txData_ok (ht.trans h), advance_after, emit_takeTx_after _ _ rfl rfl]
  | fault t => rw [txData_fault h, txData_fault (ht.trans h), raise_after, emit_takeTx_after _ _ rfl rfl]

theorem State.pinSet_after (hp : (p.after r).nextPin = p.nextPin) (level : Level) :
    (p.pinSet level).after r = (p.after r).pinSet level := by
  cases h : p.nextPin with
  | ok => rw [pinSet_ok h, pinSet_ok (hp.trans h), advance_after, emit_takePin_after _ _ rfl rfl]
  | fault e => rw [pinSet_fault h, pinSet_fault (hp.trans h), raise_after, emit_takePin_after _ _ rfl rfl]

/-- Two changes of the next state, the second past one that commutes with it. -/
theorem mapNext_after {a : StepOutcome} {f : State → State} (hf : ∀ u : State, (f u).after r = f (u.after r)) :
    mapNext (mapNext a f) (·.after r) = mapNext (mapNext a (·.after r)) f := by
  cases a with
  | next u => exact congrArg Host.Outcome.next (hf u)
  | fault q => rfl
  | refused q => rfl

theorem perform_after (ht : (p.after r).nextTx = p.nextTx) (hp : (p.after r).nextPin = p.nextPin) (c : Call) :
    perform c (p.after r) = mapNext (perform c p) (·.after r) := by
  cases c with
  | send i => simp [perform, exec_eq_txCmd, mapNext, State.txCmd_after ht]
  | data bytes => simp [perform, mapNext, State.txData_after ht]
  | chunk start length =>
    cases hm : p.memRead start length with
    | none => simp [perform, hm, mapNext]
    | some bytes => simp [perform, hm, mapNext, State.txData_after ht]
  | pin level => simp [perform, mapNext, State.pinSet_after hp]
  | delay ms => simp [perform, mapNext, State.delayMs_after]

theorem endIfDone_after (calls : Nat → Option Call) (u : State) :
    (endIfDone calls u).after r = endIfDone calls (u.after r) := by
  cases hr : u.run.running with
  | none => simp [endIfDone, hr]
  | some o =>
    cases hc : calls u.stepIdx with
    | none => simp [endIfDone, hr, hc, State.finish_after]
    | some c => simp [endIfDone, hr, hc]

theorem runSequence_after (ht : (p.after r).nextTx = p.nextTx) (hp : (p.after r).nextPin = p.nextPin)
    (calls : Nat → Option Call) :
    runSequence calls (p.after r) = mapNext (runSequence calls p) (·.after r) := by
  cases hc : calls p.stepIdx with
  | none => simp [runSequence, hc, mapNext, State.finish_after]
  | some c => simp [runSequence, hc, perform_after ht hp, mapNext_after (endIfDone_after calls)]

theorem plot_after (x y : Nat) (value : Bool) :
    plot x y value (p.after r) = mapNext (plot x y value p) (·.after r) := by
  cases hin : pixelInside p.cfg x y with
  | false => simp [plot, hin, mapNext]
  | true =>
    by_cases hi : pixelIndex p.cfg x y < p.cfg.bytes
    · rw [plot_inside value hin hi, plot_inside (s := p.after r) value hin hi]
      rfl
    · simp [plot, hin, State.fbRead, hi, mapNext]

theorem applyEvent_after (e : PixelEvent) : applyEvent e (p.after r) = mapNext (applyEvent e p) (·.after r) := by
  cases hin : insideBox p.cfg e.px e.py with
  | false => simp [applyEvent, hin, mapNext]
  | true => simp [applyEvent, hin, plot_after]

theorem opDrawPixels_after (events : List PixelEvent) :
    opDrawPixels events (p.after r) = mapNext (opDrawPixels events p) (·.after r) := by
  match events with
  | [] => simp [opDrawPixels, mapNext, State.finish_after]
  | [e] => simp [opDrawPixels, applyEvent_after, mapNext_after fun u => u.finish_after r .ok]
  | e :: d :: rest =>
    simp [opDrawPixels, applyEvent_after, mapNext_after fun u => u.withRunning_after r (.drawPixels (d :: rest))]

/-- One step of an operation does the same after any record that gives the same next answers. -/
theorem runOp_after (ht : (p.after r).nextTx = p.nextTx) (hp : (p.after r).nextPin = p.nextPin) (o : HostOp) :
    runOp o (p.after r) = mapNext (runOp o p) (·.after r) := by
  cases o with
  | encode c => exact congrArg Host.Outcome.next (p.finish_after r _).symm
  | send c => exact runSequence_after ht hp _
  | reset => exact runSequence_after ht hp _
  | init => exact runSequence_after ht hp _
  | draw buffer => exact runSequence_after ht hp _
  | setDisplayOn on => exact runSequence_after ht hp _
  | setDrawArea sx sy ex ey => exact runSequence_after ht hp _
  | clear => exact congrArg Host.Outcome.next ((p.withFb _).finish_after r .ok).symm
  | setPixel x y value => simp [runOp, opSetPixel, plot_after, mapNext_after fun u => u.finish_after r .ok]
  | flush =>
    by_cases hz : p.cfg.chunk = 0
    · simp [runOp, opFlush, hz, mapNext]
    · simp [runOp, opFlush, hz, runSequence_after ht hp]
  | drawPixels events => exact opDrawPixels_after events

end

/-! ### The step of the inputs alone -/

/-- `s` with nothing but the inputs of its next step in its run record: what `blockStep` steps (R10, R31). -/
def State.alone (s : State) : State := { s with run := s.inputs.run s.run.running }

theorem State.alone_cfg (s : State) : s.alone.cfg = s.cfg := rfl

theorem State.alone_running (s : State) : s.alone.run.running = s.run.running := rfl

theorem State.alone_requests (s : State) : s.alone.run.requests = s.run.requests.head?.toList := rfl

/-- The record once the next step has begun: the host's request is taken where no operation was in progress. -/
def Run.begun (r : Run) : Run :=
  { r with
    requests := match r.running with
      | none => r.requests.tail
      | some _ => r.requests }

theorem blockStep_next {s t : State} (h : step s.alone = .next t) :
    blockStep s.cfg s.run.running s.toBlock s.inputs =
      .next { block := t.toBlock, running := t.run.running, events := t.run.trace, results := t.run.results } := by
  simp only [State.alone] at h
  simp only [blockStep, h]

theorem blockStep_fault {s : State} {q : Fault} (h : step s.alone = .fault q) :
    blockStep s.cfg s.run.running s.toBlock s.inputs = .fault q := by
  simp only [State.alone] at h
  simp only [blockStep, h]

theorem blockStep_refused {s : State} {q : Refusal} (h : step s.alone = .refused q) :
    blockStep s.cfg s.run.running s.toBlock s.inputs = .refused q := by
  simp only [State.alone] at h
  simp only [blockStep, h]

/-- Nothing is lost in the inputs: where no request is taken, the same state stands after the same record. -/
theorem State.alone_after {s : State} (h : s.run.begun.requests = s.run.requests) :
    s.alone.after s.run.begun = s := by
  unfold State.after
  rw [h]
  simp [State.alone, Inputs.run, Run.idle, Run.begun]

/-- An operation that begins from the inputs alone begins in the same state. -/
theorem State.alone_begin_after {s : State} {q : Request} {rest : List Request} (hr : s.run.running = none)
    (hq : s.run.requests = q :: rest) (o : HostOp) : (s.alone.begin o []).after s.run.begun = s.begin o rest := by
  simp [State.after, State.begin, State.alone, Inputs.run, Run.idle, Run.begun, hr, hq]

/-- One step of an operation from the state it begins in is the step from the inputs alone, after what came before. -/
theorem runOp_begin_eq_alone {s : State} {q : Request} {rest : List Request} (hr : s.run.running = none)
    (hq : s.run.requests = q :: rest) (o : HostOp) :
    runOp o (s.begin o rest) = mapNext (runOp o (s.alone.begin o [])) (·.after s.run.begun) := by
  rw [← State.alone_begin_after hr hq]
  apply runOp_after <;> rw [State.alone_begin_after hr hq] <;> rfl

/-- Every step is the step from the inputs alone, laid after what came before. -/
theorem step_eq_alone_after (s : State) : step s = mapNext (step s.alone) (·.after s.run.begun) := by
  cases hr : s.run.running with
  | some o =>
    have hs : s.alone.after s.run.begun = s := State.alone_after (by simp [Run.begun, hr])
    rw [step_running hr, step_running (s.alone_running.trans hr), ← runOp_after, hs]
    · rw [hs]; rfl
    · rw [hs]; rfl
  | none =>
    have hra : s.alone.run.running = none := hr
    cases hq : s.run.requests with
    | nil =>
      have hqa : s.alone.run.requests = [] := by rw [State.alone_requests, hq]; rfl
      have hs : s.alone.after s.run.begun = s := State.alone_after (by simp [Run.begun, hr, hq])
      rw [step_idle hr hq, step_idle hra hqa]
      exact congrArg Host.Outcome.next hs.symm
    | cons q rest =>
      have hqa : s.alone.run.requests = [q] := by rw [State.alone_requests, hq]; rfl
      cases q with
      | op o =>
        cases ha : o.availableIn s.cfg.mode with
        | true =>
          rw [step_invokes ⟨hr, hq⟩ ha, step_invokes ⟨hra, hqa⟩ ha, runOp_begin_eq_alone hr hq]
        | false =>
          rw [step_absentInBasic ⟨hr, hq⟩ ha, step_absentInBasic ⟨hra, hqa⟩ ha]
          rfl
      | encoded bytes =>
        cases hd : decodeArray bytes with
        | ok i => rw [step_encoded hr hq hd, step_encoded hra hqa hd, runOp_begin_eq_alone hr hq]
        | error e =>
          rw [step_notACommand hr hq hd, step_notACommand hra hqa hd]
          rfl

/-- Settles O47: the block's step is the step from the inputs alone, and any other record only comes before it. -/
theorem stepIsTheBlockStepWithItsInputs : Obligations.StepIsTheBlockStepWithItsInputs := by
  intro s
  rw [step_eq_alone_after]
  cases h : step s.alone with
  | next u =>
    have hcfg : u.cfg = s.cfg := (step_cfg h).trans s.alone_cfg
    exact ⟨u.run.trace, u.run.results, blockStep_next h, hcfg, rfl, rfl, rfl, rfl, rfl, rfl, rfl⟩
  | fault q => exact blockStep_fault h
  | refused q => exact blockStep_refused h

end Sys2Proof.Machine

/-! SUPPORT. The operations that make calls: which positions of a sequence hold a call, the state after a sequence whose calls
are all accepted, and what a receiver reads off it. -/

namespace Sys2Proof.Machine

/-! ### The positions of a sequence -/

/-- The sequence of an operation has a call at exactly the positions below its count (R23, R46). -/
theorem HostOp.callAt_isSome_iff {c : Config} {o : HostOp} {k : Nat} (hchunk : 1 ≤ c.chunk) :
    (o.callAt c k).isSome ↔ k < o.callCount c := by
  refine ⟨HostOp.lt_callCount hchunk, fun h => ?_⟩
  cases o with
  | send | reset | init | draw | setDisplayOn | setDrawArea =>
    simpa [HostOp.callAt, HostOp.callCount, sendCalls, resetCalls, initCalls, drawCalls, setDisplayOnCalls,
      setDrawAreaCalls] using h
  | flush =>
    have hstart : k * c.chunk < c.bytes := by
      have hle := (Nat.le_div_iff_mul_le hchunk).1 (Nat.succ_le_of_lt h)
      rw [Nat.succ_mul] at hle
      omega
    simp [HostOp.callAt, flushCalls, chunkStart, hstart]
  | encode | clear | setPixel | drawPixels => exact absurd h (Nat.not_lt_zero k)

theorem HostOp.callAt_eq_none_iff {c : Config} {o : HostOp} {k : Nat} (hchunk : 1 ≤ c.chunk) :
    o.callAt c k = none ↔ o.callCount c ≤ k := by
  rw [← Option.not_isSome_iff_eq_none, HostOp.callAt_isSome_iff hchunk, Nat.not_lt]

/-- An operation that draws in the buffer makes no call (R54). -/
theorem HostOp.callCount_of_drawsInBuffer {c : Config} {o : HostOp} (h : o.drawsInBuffer = true) :
    o.callCount c = 0 := by
  cases o with
  | clear | setPixel | drawPixels => rfl
  | encode | send | reset | init | draw | setDisplayOn | setDrawArea | flush => cases h

/-- An operation that has a call at its position makes the calls of its sequence. -/
theorem runOp_eq_runSequence {o : HostOp} {u : State} (hchunk : o = .flush → u.cfg.chunk ≠ 0)
    (h : (o.callAt u.cfg u.stepIdx).isSome) : runOp o u = runSequence (fun k => o.callAt u.cfg k) u := by
  cases o with
  | send | reset | init | draw | setDisplayOn | setDrawArea => rfl
  | flush => simp only [runOp, opFlush, hchunk rfl, if_false]; rfl
  | encode | clear | setPixel | drawPixels => cases h

/-! ### A sequence whose calls are all accepted -/

/-- The event of a call that is accepted. -/
def State.acceptedEvent (s : State) : Call → Event
  | .send i => .cmd (encode i) .ok
  | .data bytes => .data bytes .ok
  | .chunk start length => .data ((List.range length).map fun j => s.fbByte (start + j)) .ok
  | .pin level => .pin level .ok
  | .delay ms => .wait ms

/-- The bytes a call carries from the buffer exist (R8). -/
def Call.within (c : Config) : Call → Prop
  | .chunk start length => start + length ≤ c.bytes
  | .send _ | .data _ | .pin _ | .delay _ => True

/-- `s` after accepted calls with these events: `step` one further for each (R23), one answer taken for each call of the
transport and of the pin, nothing else changed. -/
def State.recorded (s : State) (es : List Event) : State :=
  { s with
    stepIdx := s.stepIdx + es.length
    run := { s.run with
      txAnswers := s.run.txAnswers.drop (es.countP Event.ofTransport)
      pinAnswers := s.run.pinAnswers.drop (es.countP Event.ofPin)
      txCalls := s.run.txCalls + es.countP Event.ofTransport
      pinCalls := s.run.pinCalls + es.countP Event.ofPin
      trace := s.run.trace ++ es } }

/-- The environment accepts the calls with these events (R8). -/
def State.grants (s : State) (es : List Event) : Prop :=
  (∀ k < es.countP Event.ofTransport, s.txAnswer k = .ok) ∧ ∀ k < es.countP Event.ofPin, s.pinAnswer k = .ok

section

variable (s : State) (es : List Event)

@[simp] theorem State.recorded_cfg : (s.recorded es).cfg = s.cfg := rfl
@[simp] theorem State.recorded_stepIdx : (s.recorded es).stepIdx = s.stepIdx + es.length := rfl
@[simp] theorem State.recorded_running : (s.recorded es).run.running = s.run.running := rfl
@[simp] theorem State.recorded_trace : (s.recorded es).run.trace = s.run.trace ++ es := rfl

theorem State.recorded_acceptedEvent : (s.recorded es).acceptedEvent = s.acceptedEvent := by
  funext c
  cases c <;> rfl

theorem State.recorded_cons (e : Event) : s.recorded (e :: es) = (s.recorded [e]).recorded es := by
  simp [State.recorded, List.countP_cons, Nat.add_comm, Nat.add_left_comm]

theorem State.recorded_txAnswer (k : Nat) :
    (s.recorded es).txAnswer k = s.txAnswer (es.countP Event.ofTransport + k) := by
  simp [State.txAnswer, State.recorded, Nat.add_assoc]

theorem State.recorded_pinAnswer (k : Nat) :
    (s.recorded es).pinAnswer k = s.pinAnswer (es.countP Event.ofPin + k) := by
  simp [State.pinAnswer, State.recorded, Nat.add_assoc]

end

/-- Accepting a sequence is accepting its first call and, once that is recorded, the rest. -/
theorem State.grants_cons {s : State} {e : Event} {es : List Event} (h : s.grants (e :: es)) :
    s.grants [e] ∧ (s.recorded [e]).grants es := by
  obtain ⟨htx, hpin⟩ := h
  rw [← List.singleton_append, List.countP_append] at htx hpin
  refine ⟨⟨fun k hk => htx k (by omega), fun k hk => hpin k (by omega)⟩, fun k hk => ?_, fun k hk => ?_⟩
  · rw [State.recorded_txAnswer]
    exact htx _ (by omega)
  · rw [State.recorded_pinAnswer]
    exact hpin _ (by omega)

/-- An accepted call records its event and does nothing else. -/
theorem perform_accepted {c : Call} {s : State} (hin : c.within s.cfg) (hok : s.grants [s.acceptedEvent c]) :
    perform c s = .next (s.recorded [s.acceptedEvent c]) := by
  obtain ⟨htx, hpin⟩ := hok
  cases c with
  | send i =>
    have h : s.nextTx = .ok := s.nextTx_eq.trans (htx 0 Nat.one_pos)
    rw [perform, exec_eq_txCmd, State.txCmd_ok h]
    simp [State.recorded, State.acceptedEvent, State.emit, State.takeTx, State.advance, Event.ofTransport, Event.ofPin]
  | data bytes =>
    have h : s.nextTx = .ok := s.nextTx_eq.trans (htx 0 Nat.one_pos)
    rw [perform, State.txData_ok h]
    simp [State.recorded, State.acceptedEvent, State.emit, State.takeTx, State.advance, Event.ofTransport, Event.ofPin]
  | chunk start length =>
    have h : s.nextTx = .ok := s.nextTx_eq.trans (htx 0 Nat.one_pos)
    have hle : start + length ≤ s.cfg.bytes := hin
    simp [perform, State.memRead, hle, State.txData_ok h, State.recorded, State.acceptedEvent, State.emit,
      State.takeTx, State.advance, Event.ofTransport, Event.ofPin]
  | pin level =>
    have h : s.nextPin = .ok := s.nextPin_eq.trans (hpin 0 Nat.one_pos)
    rw [perform, State.pinSet_ok h]
    simp [State.recorded, State.acceptedEvent, State.emit, State.takePin, State.advance, Event.ofTransport, Event.ofPin]
  | delay ms => rfl

/-- A sequence with a further call goes on. -/
theorem endIfDone_more {calls : Nat → Option Call} {s : State} {c : Call} (h : calls s.stepIdx = some c) :
    endIfDone calls s = s := by
  rcases endIfDone_cases calls s with ⟨heq, -⟩ | ⟨-, -, hnone⟩
  · exact heq
  · simp [h] at hnone

/-- A running sequence without a further call ends with `Ok`. -/
theorem endIfDone_last {calls : Nat → Option Call} {s : State} {o : HostOp} (hr : s.run.running = some o)
    (h : calls s.stepIdx = none) : endIfDone calls s = s.finish .ok := by
  rcases endIfDone_cases calls s with ⟨-, hor⟩ | ⟨heq, -⟩
  · simp [hr, h] at hor
  · exact heq

/-- One step of a running operation whose call is accepted: the call is recorded, then the end is checked. -/
theorem step_accepted {o : HostOp} {s : State} {c : Call} (hr : s.run.running = some o)
    (hchunk : o = .flush → s.cfg.chunk ≠ 0) (hc : o.callAt s.cfg s.stepIdx = some c) (hin : c.within s.cfg)
    (hok : s.grants [s.acceptedEvent c]) :
    step s = .next (endIfDone (fun k => o.callAt s.cfg k) (s.recorded [s.acceptedEvent c])) := by
  rw [step_running hr, runOp_eq_runSequence hchunk (by simp [hc])]
  simp only [runSequence, hc, perform_accepted hin hok, mapNext]

/-- A running operation whose remaining calls, at least one, are all accepted ends with `Ok`, having recorded exactly their
events. -/
theorem steps_accepted {o : HostOp} {s : State} {c : Call} {cs : List Call} (hr : s.run.running = some o)
    (hchunk : o = .flush → s.cfg.chunk ≠ 0) (hcalls : ∀ k, o.callAt s.cfg (s.stepIdx + k) = (c :: cs)[k]?)
    (hin : ∀ d ∈ c :: cs, d.within s.cfg) (hok : s.grants ((c :: cs).map s.acceptedEvent)) :
    steps (cs.length + 1) s = .next ((s.recorded ((c :: cs).map s.acceptedEvent)).finish .ok) := by
  induction cs generalizing s c with
  | nil =>
    have hstep := step_accepted hr hchunk (hcalls 0) (hin c (by simp)) hok
    exact steps_succ 0 (hstep.trans (congrArg Host.Outcome.next (endIfDone_last hr (hcalls 1))))
  | cons d ds ih =>
    obtain ⟨hfirst, hrest⟩ := State.grants_cons hok
    have hstep : step s = .next (s.recorded [s.acceptedEvent c]) :=
      (step_accepted hr hchunk (hcalls 0) (hin c (by simp)) hfirst).trans
        (congrArg Host.Outcome.next (endIfDone_more (hcalls 1)))
    have hevents : (s.recorded [s.acceptedEvent c]).acceptedEvent = s.acceptedEvent := s.recorded_acceptedEvent _
    have hnext := ih (s := s.recorded [s.acceptedEvent c]) hr hchunk
      (fun k => by simpa [Nat.add_right_comm, ← Nat.add_assoc] using hcalls (k + 1))
      (fun e he => hin e (List.mem_cons_of_mem c he)) (by rwa [hevents])
    rw [hevents, ← State.recorded_cons] at hnext
    exact (steps_succ (ds.length + 1) hstep).trans hnext

/-- The steps of an operation the host invokes are those of the operation begun. -/
theorem steps_invokes {s : State} {o : HostOp} {rest : List Request} (n : Nat) (h : s.invokes o rest)
    (ha : o.availableIn s.cfg.mode = true) : steps (n + 1) s = steps (n + 1) (s.begin o rest) := by
  simp only [steps, step_invokes h ha, step_running (s.begin_running o rest)]

/-- An operation the host invokes ends with `Ok` if its calls, at least one, are all accepted, having recorded exactly their
events. -/
theorem steps_invokes_accepted {s : State} {o : HostOp} {rest : List Request} {c : Call} {cs : List Call}
    (h : s.invokes o rest) (ha : o.availableIn s.cfg.mode = true) (hchunk : o = .flush → s.cfg.chunk ≠ 0)
    (hcalls : ∀ k, o.callAt s.cfg k = (c :: cs)[k]?) (hin : ∀ d ∈ c :: cs, d.within s.cfg)
    (hok : s.grants ((c :: cs).map s.acceptedEvent)) :
    steps (cs.length + 1) s =
      .next (((s.begin o rest).recorded ((c :: cs).map s.acceptedEvent)).finish .ok) := by
  have hevents : (s.begin o rest).acceptedEvent = s.acceptedEvent := by
    funext d
    cases d <;> rfl
  rw [steps_invokes _ h ha, ← hevents]
  exact steps_accepted (s.begin_running o rest) hchunk (by simpa using hcalls) hin (by rw [hevents]; exact hok)

/-! ### What a receiver reads off a sequence -/

/-- The Command of a call that sends one. -/
def Call.command : Call → Option Instr
  | .send i => some i
  | .data _ | .chunk _ _ | .pin _ | .delay _ => none

theorem lastSent_append (xs ys : List Event) : lastSent (xs ++ ys) = ys.foldl Sent.after (lastSent xs) := by
  simp [lastSent]

/-- The calls of a sequence leave what its Commands say, where a receiver reads each as the Command it is (R67). -/
theorem Sent.foldl_acceptedEvent (s : State) (calls : List Call) (r : Sent)
    (h : ∀ i ∈ calls.filterMap Call.command, decodeFrame (encode i) = .ok i) :
    (calls.map s.acceptedEvent).foldl Sent.after r = (calls.filterMap Call.command).foldl Sent.record r := by
  induction calls generalizing r with
  | nil => rfl
  | cons c cs ih =>
    cases c with
    | send i =>
      have hread : r.after (.cmd (encode i) .ok) = r.record i := by simp [Sent.after, h i (by simp [Call.command])]
      simpa [State.acceptedEvent, Call.command, hread] using
        ih (r.record i) fun j hj => h j (List.mem_cons_of_mem i hj)
    | data | chunk | pin | delay => exact ih r h

/-- A receiver reads each Command of `init` as the Command it is. -/
theorem decodeFrame_encode_initCalls :
    ∀ i ∈ initCalls.filterMap Call.command, decodeFrame (encode i) = .ok i := by decide

theorem initCalls_within (c : Config) : ∀ d ∈ initCalls, d.within c := by simp [initCalls, Call.within]

/-- A fault-free `init` ends with `Ok` in 24 steps, having recorded the events of its calls (R102). -/
theorem steps_init_accepted {s : State} {rest : List Request} (h : s.invokes .init rest)
    (hok : ∀ k < 19, s.txAnswer k = .ok) :
    steps 24 s = .next (((s.begin .init rest).recorded (initCalls.map s.acceptedEvent)).finish .ok) := by
  have hnoPin : ∀ k < 0, s.pinAnswer k = .ok := fun k hk => absurd hk (Nat.not_lt_zero k)
  exact steps_invokes_accepted h rfl nofun (fun k => rfl) (initCalls_within s.cfg) ⟨hok, hnoPin⟩

/-- Settles O23: `init` has a Command for each of the 13 registers, so the last one for each decides, whatever was sent
before. -/
theorem initLeavesTheListedValuesSent : Obligations.InitLeavesTheListedValuesSent := by
  intro s rest h hok
  refine ⟨_, steps_init_accepted h hok, ?_⟩
  rw [State.finish_trace, State.recorded_trace, lastSent_append,
    Sent.foldl_acceptedEvent s initCalls _ decodeFrame_encode_initCalls]
  rfl

/-! ### Who writes the buffer -/

theorem HostOp.eq_of_drawsInBuffer {o : HostOp} (h : o.drawsInBuffer = true) :
    o = .clear ∨ (∃ x y v, o = .setPixel x y v) ∨ (∃ es, o = .drawPixels es) := by
  cases o with
  | clear => exact .inl rfl
  | setPixel x y v => exact .inr (.inl ⟨x, y, v, rfl⟩)
  | drawPixels es => exact .inr (.inr ⟨es, rfl⟩)
  | encode | send | reset | init | draw | setDisplayOn | setDrawArea | flush => cases h

/-- A step of an operation keeps the buffer, or it is one of an operation that draws in it and makes no event. -/
theorem runOp_fb {o : HostOp} {u t : State} (h : runOp o u = .next t) :
    t.fb = u.fb ∨ (o.drawsInBuffer = true ∧ t.run.trace = u.run.trace) := by
  rcases runOp_next h with ⟨-, -, r, rfl, -⟩ | ⟨c, v, -, hp, hv⟩ | ⟨hdraws, m, -, -, rfl | ⟨e, es, -, -, rfl⟩⟩
  · exact .inl rfl
  · obtain ⟨hfb, -⟩ := perform_frame hp
    rcases hv with ⟨rfl, -⟩ | ⟨rfl, -, -⟩ <;> exact .inl hfb
  · exact .inr ⟨hdraws, rfl⟩
  · exact .inr ⟨hdraws, rfl⟩

/-- Settles O39: fetching keeps buffer and trace, and of the operations only those that draw in the buffer write it. -/
theorem onlyBufferOperationsWriteTheBuffer : Obligations.OnlyBufferOperationsWriteTheBuffer := by
  intro s t h hne
  rcases step_next h with ⟨-, rfl⟩ | ⟨o, u, hf, ho⟩
  · exact absurd rfl hne
  · obtain ⟨hfb, -, -, htrace, -⟩ := fetch_run_frame hf
    rcases runOp_fb ho with hsame | ⟨hdraws, hquiet⟩
    · exact absurd (hsame.trans hfb) hne
    · exact ⟨o, u, hf, hquiet.trans htrace, HostOp.eq_of_drawsInBuffer hdraws⟩

/-! ### The step index -/

/-- One step of an operation that has a call at its position: the call was accepted and the operation goes on, or ends with
`Ok` because that was its last call; or the call failed (R23, R143). -/
theorem runOp_stepIdx {o : HostOp} {u t : State} (hchunk : 1 ≤ u.cfg.chunk) (hr : u.run.running = some o)
    (hk : u.stepIdx < o.callCount u.cfg) (h : runOp o u = .next t) :
    (t.stepIdx = u.stepIdx + 1 ∧ t.stepIdx < o.callCount u.cfg ∧ t.run.running = some o ∧
      t.run.results = u.run.results) ∨
    (t.stepIdx = u.stepIdx + 1 ∧ t.stepIdx = o.callCount u.cfg ∧ t.run.running = none ∧
      t.run.results = u.run.results ++ [.ok]) ∨
    ∃ f, t.run.results = u.run.results ++ [.err f] := by
  rcases runOp_next h with ⟨hnone, -⟩ | ⟨c, v, -, hp, hv⟩ | ⟨hdraws, -⟩
  · rw [HostOp.callAt_eq_none_iff hchunk] at hnone
    omega
  · obtain ⟨-, hcfg, -⟩ := perform_frame hp
    obtain ⟨e, -, ⟨hrunning, hidx, hresults⟩ | ⟨f, hended, -, hresults⟩⟩ := perform_recordsCall hp
    · rw [hcfg, HostOp.callAt_isSome_iff hchunk, HostOp.callAt_eq_none_iff hchunk, hrunning, hr] at hv
      rcases hv with ⟨rfl, hmore⟩ | ⟨rfl, -, hlast⟩
      · exact .inl ⟨hidx, hmore.resolve_left nofun, hrunning.trans hr, hresults⟩
      · refine .inr (.inl ⟨hidx, ?_, rfl, by simp [hresults]⟩)
        rw [State.finish_stepIdx]
        omega
    · rcases hv with ⟨rfl, -⟩ | ⟨-, hsome, -⟩
      · exact .inr (.inr ⟨f, hresults⟩)
      · simp [hended] at hsome
  · rw [HostOp.callCount_of_drawsInBuffer hdraws] at hk
    exact absurd hk (Nat.not_lt_zero _)

/-- Settles O55: in a sound state the position lies inside the sequence, and a call that does not fail moves it by one, to
the count exactly when it was the last. -/
theorem stepIndexCountsCalls : Obligations.StepIndexCountsCalls := by
  intro s t u o hs hf h hcount hnoErr
  rcases step_next h with ⟨hidle, -⟩ | ⟨o', u', hf', ho⟩
  · rw [hf] at hidle
    cases hidle
  obtain ⟨rfl, rfl⟩ := Fetched.run.inj (hf.symm.trans hf')
  obtain ⟨-, hcfg, hrunning, -, hresults, -⟩ := fetch_run_frame hf
  obtain ⟨⟨hwf, -⟩, hunder⟩ := (State.sound_iff u).1 (fetch_run_sound hs hf)
  obtain ⟨-, -, -, -, -, hchunk⟩ := hwf
  have hk : u.stepIdx < o.callCount u.cfg := by
    have hw := hunder o hrunning
    simp only [HostOp.underWay, Bool.and_eq_true, decide_eq_true_eq] at hw
    rw [hcfg] at hw ⊢
    omega
  have hcases := runOp_stepIdx hchunk hrunning hk ho
  rw [hcfg, hresults] at hcases
  rcases hcases with ⟨hidx, hlt, hon, hres⟩ | ⟨hidx, hend, hoff, hres⟩ | ⟨f, herr⟩
  · exact ⟨hidx, by simp [hres, hlt.ne], by simp [hon, hlt.ne]⟩
  · exact ⟨hidx, by simp [hres, hend], by simp [hoff, hend]⟩
  · exact absurd herr (hnoErr f)

/-! ### Reset -/

theorem Config.thisHardware_bytes : Config.thisHardware.bytes = 2048 := by decide

/-- A byte that nothing has written reads as its free value (R32). -/
theorem State.resetWith_fbRead {c : Config} {i : Nat} (h : i < c.bytes) :
    (State.resetWith c).fbRead i = some (Config.initialByte i) := by
  simp [State.resetWith, State.fbRead, State.fbByte, Memory.read, unwritten, h]

/-- Settles O49: the parameters are those of the hardware (R5), and the buffer is as instantiated. -/
theorem resetIsTheInstantiatedBlock : Obligations.ResetIsTheInstantiatedBlock := by
  obtain ⟨-, -, -, -, -, hchunk⟩ := Config.thisHardware_wf
  exact ⟨rfl, rfl, rfl, rfl, rfl, Config.thisHardware_bytes, hchunk,
    fun i hi => State.resetWith_fbRead (Config.thisHardware_bytes.symm ▸ hi)⟩

end Sys2Proof.Machine

/-! SUPPORT. The pixel buffer as memory: which bit a pixel has, what `set_pixel` writes, that no drawing shows outside, and
which bytes a step of `flush` reads. -/

namespace Sys2Proof.Machine

/-! ### The bit of a pixel (R40, R41) -/

/-- With whole bands, N is the number of bands times WIDTH (R5, R40). -/
theorem Config.bytes_eq_bands {c : Config} (hbands : c.height % 8 = 0) : c.bytes = c.height / 8 * c.width := by
  rw [Config.bytes, Nat.mul_div_assoc c.width (Nat.dvd_of_mod_eq_zero hbands), Nat.mul_comm]

/-- The buffer is never empty (R123: N is at least 1). -/
theorem Config.bytes_pos {c : Config} (hc : c.wf) : 0 < c.bytes := by
  obtain ⟨hwidth, -, hheight, hbands, -⟩ := hc
  rw [Config.bytes_eq_bands hbands]
  exact Nat.mul_pos (by omega) hwidth

/-- A pixel of the display has its byte in the buffer: its band is one of the bands, its column lies inside the band. -/
theorem pixelIndex_lt_bytes {c : Config} {x y : Nat} (hbands : c.height % 8 = 0) (hx : x < c.width)
    (hy : y < c.height) : pixelIndex c x y < c.bytes := by
  have hband : y / 8 + 1 ≤ c.height / 8 := by omega
  calc pixelIndex c x y < y / 8 * c.width + c.width := Nat.add_lt_add_left hx _
    _ = (y / 8 + 1) * c.width := (Nat.succ_mul _ _).symm
    _ ≤ c.height / 8 * c.width := Nat.mul_le_mul_right _ hband
    _ = c.bytes := (Config.bytes_eq_bands hbands).symm

theorem pixelBit_lt (y : Nat) : pixelBit y < 8 := Nat.mod_lt y (by decide)

/-- The column of a pixel is read off its index. -/
theorem pixelIndex_mod {c : Config} {x y : Nat} (hx : x < c.width) : pixelIndex c x y % c.width = x := by
  rw [pixelIndex, Nat.mul_add_mod', Nat.mod_eq_of_lt hx]

/-- The band of a pixel is read off its index. -/
theorem pixelIndex_div {c : Config} {x y : Nat} (hx : x < c.width) : pixelIndex c x y / c.width = y / 8 := by
  rw [pixelIndex, Nat.mul_comm, Nat.mul_add_div (by omega), Nat.div_eq_of_lt hx, Nat.add_zero]

/-- Index and bit together determine the pixel. -/
theorem pixel_unique {c : Config} {x y x' y' : Nat} (hx : x < c.width) (hx' : x' < c.width)
    (hindex : pixelIndex c x y = pixelIndex c x' y') (hbit : pixelBit y = pixelBit y') : x = x' ∧ y = y' := by
  have hband : y / 8 = y' / 8 := by rw [← pixelIndex_div hx, ← pixelIndex_div hx', hindex]
  have hrow : y % 8 = y' % 8 := hbit
  exact ⟨by rw [← pixelIndex_mod hx, ← pixelIndex_mod hx', hindex], by omega⟩

/-- Every bit of the buffer is the bit of the pixel whose column, band and row in the band are its own. -/
theorem exists_pixel {c : Config} {i bit : Nat} (hc : c.wf) (hi : i < c.bytes) (hbit : bit < 8) :
    ∃ x y, x < c.width ∧ y < c.height ∧ pixelIndex c x y = i ∧ pixelBit y = bit := by
  obtain ⟨hwidth, -, -, hbands, -⟩ := hc
  have hband : i / c.width < c.height / 8 :=
    Nat.div_lt_of_lt_mul (by rwa [Nat.mul_comm, ← Config.bytes_eq_bands hbands])
  have hdiv : (8 * (i / c.width) + bit) / 8 = i / c.width := by omega
  refine ⟨i % c.width, 8 * (i / c.width) + bit, Nat.mod_lt i hwidth, by omega, ?_, by simp only [pixelBit]; omega⟩
  rw [pixelIndex, hdiv, Nat.div_add_mod']

/-- Settles O30: the index is a number in mixed radix, band and column its digits, and the bit is the row in the band. -/
theorem pixelMapIsABijection : Obligations.PixelMapIsABijection := by
  intro c hc
  have ⟨_, _, _, hbands, _⟩ := hc
  exact ⟨fun x y hx hy => ⟨pixelIndex_lt_bytes hbands hx hy, pixelBit_lt y⟩,
    fun x y x' y' hx _ hx' _ => pixel_unique hx hx', fun i bit => exists_pixel hc⟩

/-! ### One bit of a byte, one byte of the buffer -/

/-- `putBit` writes the one bit and keeps the others (R74). -/
theorem putBit_getLsbD (b : Byte) {bit j : Nat} (value : Bool) (hj : j < 8) :
    (putBit b bit value).getLsbD j = if j = bit then value else b.getLsbD j := by
  have hone : ((1 : Byte) <<< bit).getLsbD j = decide (j = bit) := by
    refine (BitVec.getLsbD_twoPow bit j).trans (Bool.eq_iff_iff.2 ?_)
    simp only [Bool.and_eq_true, decide_eq_true_eq]
    omega
  cases value with
  | true =>
    rw [putBit, if_pos rfl, BitVec.getLsbD_or, hone]
    by_cases h : j = bit <;> simp [h]
  | false =>
    rw [putBit, if_neg Bool.false_ne_true, BitVec.getLsbD_and, BitVec.getLsbD_not, hone]
    by_cases h : j = bit <;> simp [h, hj]

/-- What a byte of the buffer reads as depends on the buffer alone. -/
theorem State.fbByte_congr {s t : State} (h : t.fb = s.fb) : t.fbByte = s.fbByte := by
  funext i
  rw [State.fbByte, State.fbByte, h]

/-- The buffer of `s` with the bit of the pixel (x, y) written (R122): the write of `plot_inside`. -/
def State.plotted (s : State) (x y : Nat) (value : Bool) : Memory :=
  Memory.write s.fb (pixelIndex s.cfg x y) (putBit (s.fbByte (pixelIndex s.cfg x y)) (pixelBit y) value)

/-- The pixel's byte has the pixel's bit written; the other bytes are as they were. -/
theorem State.endedWith_plotted_fbByte (s : State) (x y i : Nat) (value : Bool) (r : OpResult) (rest : List Request) :
    (s.endedWith (s.plotted x y value) r rest).fbByte i =
      if i = pixelIndex s.cfg x y then putBit (s.fbByte i) (pixelBit y) value else s.fbByte i := by
  by_cases h : i = pixelIndex s.cfg x y
  · subst h
    simp [State.fbByte, State.endedWith, State.plotted, Memory.read_write_same]
  · simp [State.fbByte, State.endedWith, State.plotted, Memory.read_write_other _ _ h, h]

/-- The pixel's bit is written; every other bit of the buffer is as it was. -/
theorem State.endedWith_plotted_bufferBit (s : State) (x y i : Nat) {bit : Nat} (value : Bool) (r : OpResult)
    (rest : List Request) (hbit : bit < 8) :
    (s.endedWith (s.plotted x y value) r rest).bufferBit i bit =
      if i = pixelIndex s.cfg x y ∧ bit = pixelBit y then value else s.bufferBit i bit := by
  simp only [State.bufferBit, State.endedWith_plotted_fbByte]
  by_cases hi : i = pixelIndex s.cfg x y
  · simp [hi, putBit_getLsbD _ _ hbit]
  · simp [hi]

/-! ### `set_pixel` (R122) -/

/-- One step of a `set_pixel` the host invokes is its plot, then `Ok`. -/
theorem step_setPixel {s t : State} {x y : Nat} {value : Bool} {rest : List Request} (hmode : s.cfg.mode = .buffered)
    (h : s.invokes (.setPixel x y value) rest)
    (hplot : plot x y value (s.begin (.setPixel x y value) rest) = .next t) : step s = .next (t.finish .ok) := by
  rw [step_invokes h (by simp [HostOp.availableIn, hmode]), runOp, opSetPixel, hplot, mapNext]

/-- A `set_pixel` inside the display writes its pixel's bit and nothing else. -/
theorem step_setPixel_inside {s : State} {x y : Nat} {value : Bool} {rest : List Request} (hc : s.cfg.wf)
    (hmode : s.cfg.mode = .buffered) (h : s.invokes (.setPixel x y value) rest) (hx : x < s.cfg.width)
    (hy : y < s.cfg.height) : step s = .next (s.endedWith (s.plotted x y value) .ok rest) := by
  obtain ⟨-, -, -, hbands, -⟩ := hc
  have hinside : pixelInside s.cfg x y = true := by simp [pixelInside, hx, hy]
  exact step_setPixel hmode h (plot_inside value hinside (pixelIndex_lt_bytes hbands hx hy))

/-- Settles O32: the coordinate test alone decides, so the plot answers the state it was given. -/
theorem setPixelOutsideDoesNothing : Obligations.SetPixelOutsideDoesNothing := by
  intro s x y value rest hmode h hout
  have houtside : pixelInside s.cfg x y = false := by simpa [pixelInside] using hout
  exact step_setPixel hmode h (plot_outside value houtside)

/-- Settles O33: each of the two steps writes the same one bit, the second one 0, so a byte differs from before in that
bit at most. -/
theorem setThenClearPixel : Obligations.SetThenClearPixel := by
  intro s x y rest hc hmode h hx hy
  let u := s.endedWith (s.plotted x y true) .ok (.op (.setPixel x y false) :: rest)
  let t := u.endedWith (u.plotted x y false) .ok rest
  have hset : step s = .next u := step_setPixel_inside hc hmode h hx hy
  have hclear : step u = .next t := step_setPixel_inside hc hmode ⟨rfl, rfl⟩ hx hy
  have hoff : t.pixelOn x y = false :=
    (u.endedWith_plotted_bufferBit x y _ false .ok rest (pixelBit_lt y)).trans (if_pos ⟨rfl, rfl⟩)
  have hkept : ∀ i bit, bit < 8 → ¬(i = pixelIndex s.cfg x y ∧ bit = pixelBit y) →
      t.bufferBit i bit = s.bufferBit i bit := fun i bit hbit hne =>
    calc t.bufferBit i bit = u.bufferBit i bit :=
          (u.endedWith_plotted_bufferBit x y i false .ok rest hbit).trans (if_neg hne)
      _ = s.bufferBit i bit := (s.endedWith_plotted_bufferBit x y i true .ok _ hbit).trans (if_neg hne)
  refine ⟨t, (steps_succ 1 hset).trans (steps_succ 0 hclear), rfl, List.append_assoc _ _ _, rfl, hoff, hkept, ?_⟩
  intro hwasOff i
  refine BitVec.eq_of_getLsbD_eq fun bit hbit => ?_
  by_cases hpixel : i = pixelIndex s.cfg x y ∧ bit = pixelBit y
  · obtain ⟨rfl, rfl⟩ := hpixel
    exact hoff.trans hwasOff.symm
  · exact hkept i bit hbit hpixel

/-! ### Drawing in the buffer shows nothing outside (R54) -/

/-- A step that answers a next state is a step of what was fetched. -/
theorem runOp_of_step {s t u : State} {o : HostOp} (hf : fetch s = .run o u) (h : step s = .next t) :
    runOp o u = .next t := by
  simpa [step, sequencerStep, hf] using h

theorem HostOp.callAt_of_drawsInBuffer {c : Config} {o : HostOp} {k : Nat} (h : o.drawsInBuffer = true) :
    o.callAt c k = none := by
  cases o with
  | clear | setPixel | drawPixels => rfl
  | encode | send | reset | init | draw | setDisplayOn | setDrawArea | flush => cases h

/-- A step of an operation that draws in the buffer writes the buffer, then ends or has pixel events left. -/
theorem runOp_of_drawsInBuffer {o : HostOp} {u t : State} (hdraws : o.drawsInBuffer = true)
    (h : runOp o u = .next t) :
    ∃ m, t = (u.withFb m).finish .ok ∨ ∃ es, t = (u.withFb m).withRunning (.drawPixels es) := by
  rcases runOp_next h with ⟨-, hnot, -⟩ | ⟨c, v, hcall, -⟩ | ⟨-, m, -, -, hend | ⟨e, es, -, -, hmore⟩⟩
  · simp [hdraws] at hnot
  · simp [HostOp.callAt_of_drawsInBuffer hdraws] at hcall
  · exact ⟨m, .inl hend⟩
  · exact ⟨m, .inr ⟨es, hmore⟩⟩

/-- Settles O38: fetching keeps the trace and the answers, and a step that draws writes the buffer and ends or goes on. -/
theorem bufferChangesAreInvisible : Obligations.BufferChangesAreInvisible := by
  intro s t u o hf h ho
  have hdraws : o.drawsInBuffer = true := by
    rcases ho with rfl | ⟨x, y, v, rfl⟩ | ⟨es, rfl⟩ <;> rfl
  obtain ⟨-, -, -, htrace, -, htx, htxCalls, hpin, hpinCalls⟩ := fetch_run_frame hf
  obtain ⟨m, rfl | ⟨es, rfl⟩⟩ := runOp_of_drawsInBuffer hdraws (runOp_of_step hf h)
  · exact ⟨htrace, htx, htxCalls, hpin, hpinCalls⟩
  · exact ⟨htrace, htx, htxCalls, hpin, hpinCalls⟩

/-! ### The chunks of `flush` (R46) -/

/-- There is a chunk at a position exactly when its first byte is one of the buffer. -/
theorem lt_flush_callCount_iff {c : Config} {k : Nat} (hchunk : 1 ≤ c.chunk) :
    k < HostOp.flush.callCount c ↔ k * c.chunk < c.bytes := by
  rw [← HostOp.callAt_isSome_iff hchunk, HostOp.callAt, flushCalls, chunkStart]
  by_cases hfirst : k * c.chunk < c.bytes <;> simp [hfirst]

/-- A chunk that another one follows is full. -/
theorem chunkLength_of_not_last {c : Config} {k : Nat} (hchunk : 1 ≤ c.chunk)
    (hk : k + 1 < HostOp.flush.callCount c) : chunkLength c k = c.chunk := by
  rw [lt_flush_callCount_iff hchunk, Nat.succ_mul] at hk
  exact Nat.min_eq_left (by omega)

/-- The last chunk is what is left. -/
theorem chunkLength_of_last {c : Config} {k : Nat} (hchunk : 1 ≤ c.chunk) (hk : k + 1 = HostOp.flush.callCount c) :
    chunkLength c k = c.bytes - (HostOp.flush.callCount c - 1) * c.chunk := by
  have hend : ¬ (k + 1) * c.chunk < c.bytes := by rw [← lt_flush_callCount_iff hchunk]; omega
  rw [Nat.succ_mul] at hend
  rw [← hk, Nat.add_sub_cancel]
  exact Nat.min_eq_right (by omega)

theorem chunkLength_pos {c : Config} {k : Nat} (hchunk : 1 ≤ c.chunk) (hk : k < HostOp.flush.callCount c) :
    1 ≤ chunkLength c k := by
  rw [lt_flush_callCount_iff hchunk] at hk
  exact Nat.le_min.2 ⟨hchunk, by omega⟩

/-- A buffer of at most CHUNK bytes is one chunk. -/
theorem flush_callCount_eq_one {c : Config} (hc : c.wf) (hle : c.bytes ≤ c.chunk) : HostOp.flush.callCount c = 1 := by
  have hpos := Config.bytes_pos hc
  obtain ⟨-, -, -, -, -, hchunk⟩ := hc
  have hfirst : 0 < HostOp.flush.callCount c := by rw [lt_flush_callCount_iff hchunk]; omega
  have hsecond : ¬ 1 < HostOp.flush.callCount c := by rw [lt_flush_callCount_iff hchunk]; omega
  omega

/-- The bytes of a read of the buffer (R8). -/
theorem State.memRead_eq_some {s : State} {addr n : Nat} {bytes : List Byte} (h : s.memRead addr n = some bytes) :
    bytes = (List.range n).map fun j => s.fbByte (addr + j) := by
  unfold State.memRead at h
  split at h
  · exact (Option.some.inj h).symm
  · cases h

/-- A running operation of a sound state that makes calls is at a position of its sequence (R23). -/
theorem State.stepIdx_lt_callCount {s : State} {o : HostOp} (hs : s.sound) (hr : s.run.running = some o)
    (hcount : 0 < o.callCount s.cfg) : s.stepIdx < o.callCount s.cfg := by
  obtain ⟨-, hrunning⟩ := s.sound_iff.1 hs
  have hunder := hrunning o hr
  simp only [HostOp.underWay, Bool.and_eq_true, decide_eq_true_eq] at hunder
  omega

/-- One step of `flush` at a position of its sequence makes one data call, with the bytes of the chunk there. -/
theorem runOp_flush_trace {u t : State} (hchunk : 1 ≤ u.cfg.chunk) (hk : u.stepIdx < HostOp.flush.callCount u.cfg)
    (h : runOp .flush u = .next t) :
    t.run.trace = u.run.trace ++ [.data ((List.range (chunkLength u.cfg u.stepIdx)).map
      fun j => u.fbByte (u.stepIdx * u.cfg.chunk + j)) u.nextTx] := by
  have hcall : HostOp.flush.callAt u.cfg u.stepIdx =
      some (.chunk (chunkStart u.cfg u.stepIdx) (chunkLength u.cfg u.stepIdx)) :=
    if_pos ((lt_flush_callCount_iff hchunk).1 hk)
  rcases runOp_next h with ⟨hnone, -⟩ | ⟨c, v, hsome, hp, hv⟩ | ⟨hdraws, -⟩
  · simp [hcall] at hnone
  · obtain rfl := Option.some.inj (hcall.symm.trans hsome)
    have htrace : t.run.trace = v.run.trace := by
      rcases hv with ⟨rfl, -⟩ | ⟨rfl, -⟩ <;> rfl
    simp only [perform] at hp
    split at hp
    · rename_i bytes hread
      obtain rfl := Host.Outcome.next.inj hp
      obtain ⟨hrecorded, -⟩ := u.txData_recordsCall bytes
      rw [htrace, hrecorded, State.memRead_eq_some hread, chunkStart]
    · cases hp
  · cases hdraws

/-- Settles O36: the position of a sound state is one of a chunk, and that chunk's length is CHUNK or what is left. -/
theorem flushStepSendsItsChunk : Obligations.FlushStepSendsItsChunk := by
  intro s t u hs hf h
  obtain ⟨hfb, hcfg, hrunning, htrace, -⟩ := fetch_run_frame hf
  obtain ⟨⟨hc, -⟩, -⟩ := s.sound_iff.1 hs
  have ⟨_, _, _, _, _, hchunk⟩ := hc
  have hfirst : 0 < HostOp.flush.callCount s.cfg := by
    rw [lt_flush_callCount_iff hchunk, Nat.zero_mul]
    exact Config.bytes_pos hc
  have hk := State.stepIdx_lt_callCount (fetch_run_sound hs hf) hrunning (by rwa [hcfg])
  have hevent := runOp_flush_trace (by rwa [hcfg]) hk (runOp_of_step hf h)
  rw [hcfg, htrace, State.fbByte_congr hfb] at hevent
  rw [hcfg] at hk
  refine ⟨chunkLength s.cfg u.stepIdx, u.nextTx, hevent, ?_, chunkLength_pos hchunk hk, Nat.min_le_left _ _, ?_⟩
  · split
    · next hlast => exact chunkLength_of_last hchunk hlast
    · next hnot => exact chunkLength_of_not_last hchunk (by omega)
  · intro hle
    have hone := flush_callCount_eq_one hc hle
    refine ⟨hone, ?_⟩
    rw [chunkLength_of_last hchunk (by omega), hone, Nat.sub_self, Nat.zero_mul, Nat.sub_zero]

end Sys2Proof.Machine

/-! SUPPORT. Decoding is the other direction of encoding: every encoding is read back, nothing else is, and the
rows of the opcode table say the same. -/

namespace Sys2Proof

open Machine

/-! ### Parameter bytes whose masked-off bits are 0 -/

/-- No bit outside `keep` is set exactly when masking changes nothing. -/
theorem and_not_eq_zero_iff (keep p : Byte) : p &&& ~~~keep = 0 ↔ p &&& keep = p := by
  constructor
  · intro h
    calc p &&& keep = (p &&& keep) ||| (p &&& ~~~keep) := by rw [h]; simp
      _ = p := by rw [← BitVec.and_or_distrib_left, BitVec.or_not_self, BitVec.and_allOnes]
  · intro h
    rw [← h, BitVec.and_assoc, BitVec.and_not_self]
    exact BitVec.and_zero

theorem masked_and_not (keep p : Byte) : (p &&& keep) &&& ~~~keep = 0 := by
  rw [BitVec.and_assoc, BitVec.and_not_self]
  exact BitVec.and_zero

/-- Where the table gives no mask the whole parameter passes (R63). -/
theorem and_not_whole (p : Byte) : p &&& ~~~0xFF = 0 := BitVec.and_zero

/-- An operand fits a field of `width` bits exactly when no bit outside the field's mask is set (R63, R69). -/
theorem fits_iff_and_not {width : Nat} {keep : Byte} (hkeep : keep.toNat = 2 ^ width - 1) (v : Byte) :
    fits width v = true ↔ v &&& ~~~keep = 0 := by
  rw [and_not_eq_zero_iff, ← BitVec.toNat_inj, BitVec.toNat_and, hkeep, Nat.and_two_pow_sub_one_eq_mod,
    Nat.mod_eq_iff_lt (Nat.two_pow_pos width).ne', fits, decide_eq_true_eq]

theorem readP1_of_clear {keep p : Byte} (make : Byte → Instr) (byte0 : Byte) (rest : List Byte)
    (h : p &&& ~~~keep = 0) : readP1 make keep byte0 (p :: rest) = .ok (make p, rest) := by
  simp [readP1, readParameter, h]

theorem readP2_of_clear {keep p q : Byte} (make : Byte → Byte → Instr) (byte0 : Byte) (rest : List Byte)
    (hp : p &&& ~~~keep = 0) (hq : q &&& ~~~keep = 0) :
    readP2 make keep byte0 (p :: q :: rest) = .ok (make p q, rest) := by
  simp [readP2, readParameter, hp, hq]

/-! ### Every encoding is read back -/

/-- The Command with its operands masked to their fields (R63): the one a receiver reads (R67). -/
def Instr.masked : Instr → Instr
  | .ayAddress a => .ayAddress (a &&& 0x1F)
  | .bias b => .bias (b &&& 0x3F)
  | .voltageClock c => .voltageClock (c &&& 0x3F)
  | .powerControl p => .powerControl p
  | .displayOn on => .displayOn on
  | .startLine line => .startLine line
  | .displayControl shl adc eon rev => .displayControl shl adc eon rev
  | .ayWindow first last => .ayWindow (first &&& 0x1F) (last &&& 0x1F)
  | .axWindow first last => .axWindow (first &&& 0x7F) (last &&& 0x7F)
  | .swReset => .swReset
  | .duty d => .duty d
  | .contrast c => .contrast c
  | .axAddress a => .axAddress (a &&& 0x7F)
  | .booster level => .booster (level &&& 0x03)

/-- Masking changes nothing in a well-formed Command. -/
theorem Instr.masked_of_wf {i : Instr} (h : i.wf = true) : i.masked = i := by
  cases i with
  | ayAddress a => exact congrArg Instr.ayAddress (and_mask5 a h)
  | bias b => exact congrArg Instr.bias (and_mask6 b h)
  | voltageClock c => exact congrArg Instr.voltageClock (and_mask6 c h)
  | ayWindow first last =>
    obtain ⟨hfirst, hlast⟩ := Bool.and_eq_true_iff.1 h
    exact congrArg₂ Instr.ayWindow (and_mask5 first hfirst) (and_mask5 last hlast)
  | axWindow first last =>
    obtain ⟨hfirst, hlast⟩ := Bool.and_eq_true_iff.1 h
    exact congrArg₂ Instr.axWindow (and_mask7 first hfirst) (and_mask7 last hlast)
  | axAddress a => exact congrArg Instr.axAddress (and_mask7 a h)
  | booster level => exact congrArg Instr.booster (and_mask2 level h)
  | powerControl | displayOn | startLine | displayControl | swReset | duty | contrast => rfl

theorem decode_displayControl (shl adc eon rev : Bool) (rest : List Byte) :
    decode (encode (.displayControl shl adc eon rev) ++ rest) = .ok (.displayControl shl adc eon rev, rest) := by
  cases shl <;> cases adc <;> cases eon <;> cases rev <;> rfl

theorem decode_booster (level : Byte) (rest : List Byte) :
    decode (encode (.booster level) ++ rest) = .ok (.booster (level &&& 0x03), rest) := by
  have hlevel : ∀ v : Byte, v &&& 0x03 = 0 ∨ v &&& 0x03 = 1 ∨ v &&& 0x03 = 2 ∨ v &&& 0x03 = 3 := by decide
  rw [encode]
  rcases hlevel level with h | h | h | h <;> rw [h] <;> rfl

/-- DECODING AN ENCODING: whatever the operands and whatever follows, the masked Command is read (R66, R67). -/
theorem decode_encode (i : Instr) (rest : List Byte) : decode (encode i ++ rest) = .ok (i.masked, rest) := by
  cases i with
  | ayAddress a => exact readP1_of_clear _ _ rest (masked_and_not 0x1F a)
  | bias b => exact readP1_of_clear _ _ rest (masked_and_not 0x3F b)
  | voltageClock c => exact readP1_of_clear _ _ rest (masked_and_not 0x3F c)
  | powerControl p => exact readP1_of_clear _ _ rest (and_not_whole p)
  | displayOn on => cases on <;> rfl
  | startLine line => exact readP1_of_clear _ _ rest (and_not_whole line)
  | displayControl shl adc eon rev => exact decode_displayControl shl adc eon rev rest
  | ayWindow first last => exact readP2_of_clear _ _ rest (masked_and_not 0x1F first) (masked_and_not 0x1F last)
  | axWindow first last => exact readP2_of_clear _ _ rest (masked_and_not 0x7F first) (masked_and_not 0x7F last)
  | swReset => rfl
  | duty d => exact readP1_of_clear _ _ rest (and_not_whole d)
  | contrast c => exact readP1_of_clear _ _ rest (and_not_whole c)
  | axAddress a => exact readP1_of_clear _ _ rest (masked_and_not 0x7F a)
  | booster level => exact decode_booster level rest

/-- A call is read as a Command exactly when the Command is read and nothing is left. -/
theorem decodeFrame_eq_ok_iff {bytes : List Byte} {i : Instr} :
    decodeFrame bytes = .ok i ↔ decode bytes = .ok (i, []) := by
  unfold decodeFrame
  split <;> simp [*]

/-- The array is read as the Command at its head when only zeros follow. -/
theorem decodeArray_of_decode {bytes : List Byte} {i : Instr} {n : Nat}
    (h : decode bytes = .ok (i, List.replicate n 0)) : decodeArray bytes = .ok i := by
  simp [decodeArray, h]

theorem decodeFrame_encode (i : Instr) : decodeFrame (encode i) = .ok i.masked := by
  have h := decode_encode i []
  rw [List.append_nil] at h
  exact decodeFrame_eq_ok_iff.2 h

theorem decodeArray_encodeArray (i : Instr) : decodeArray (encodeArray i) = .ok i.masked :=
  decodeArray_of_decode (decode_encode i _)

/-- Settles O5: what is read from an encoding is the masked Command, and a well-formed Command is its own. -/
theorem decodingAnEncodingGivesTheCommandBack : Obligations.DecodingAnEncodingGivesTheCommandBack := by
  intro i rest hwf
  have hmasked := Instr.masked_of_wf hwf
  refine ⟨?_, ?_, ?_⟩
  · rw [decode_encode, hmasked]
  · rw [decodeFrame_encode, hmasked]
  · rw [decodeArray_encodeArray, hmasked]

/-! ### Nothing else is read -/

/-- The one byte of DisplayOn is the opcode and the flag it was read with (R84). -/
theorem encode_displayOn_of_byte0 : ∀ b : Byte, b &&& 0xFE = 0x3C → encode (.displayOn (b.getLsbD 0)) = [b] := by
  decide

theorem encode_displayControl_of_byte0 : ∀ b : Byte, b &&& 0xF0 = 0x60 →
    encode (.displayControl (b.getLsbD 3) (b.getLsbD 2) (b.getLsbD 1) (b.getLsbD 0)) = [b] := by decide

theorem encode_booster_of_byte0 : ∀ b : Byte, b &&& 0xFC = 0xFC → encode (.booster (b &&& 0x03)) = [b] := by decide

theorem formatP1_of_clear {keep p : Byte} (opcode : Byte) (h : p &&& ~~~keep = 0) :
    formatP1 opcode keep p = [opcode, p] := by
  rw [formatP1, (and_not_eq_zero_iff keep p).1 h]

theorem formatP2_of_clear {keep p q : Byte} (opcode : Byte) (hp : p &&& ~~~keep = 0) (hq : q &&& ~~~keep = 0) :
    formatP2 opcode keep p q = [opcode, p, q] := by
  rw [formatP2, (and_not_eq_zero_iff keep p).1 hp, (and_not_eq_zero_iff keep q).1 hq]

/-- What format P1 reads is well-formed and encoded by the bytes read, where that is so of each Command it makes. -/
theorem readP1_reads_encoding {make : Byte → Instr} {opcode keep : Byte} {tail rest : List Byte} {i : Instr}
    (hwf : ∀ p, p &&& ~~~keep = 0 → (make p).wf = true)
    (hencode : ∀ p, p &&& ~~~keep = 0 → encode (make p) = [opcode, p])
    (h : readP1 make keep opcode tail = .ok (i, rest)) : i.wf = true ∧ opcode :: tail = encode i ++ rest := by
  obtain ⟨p, rfl, hp, rfl⟩ := readP1_ok h
  exact ⟨hwf p hp, by rw [hencode p hp]; rfl⟩

/-- The same for format P2. -/
theorem readP2_reads_encoding {make : Byte → Byte → Instr} {opcode keep : Byte} {tail rest : List Byte} {i : Instr}
    (hwf : ∀ p q, p &&& ~~~keep = 0 → q &&& ~~~keep = 0 → (make p q).wf = true)
    (hencode : ∀ p q, p &&& ~~~keep = 0 → q &&& ~~~keep = 0 → encode (make p q) = [opcode, p, q])
    (h : readP2 make keep opcode tail = .ok (i, rest)) : i.wf = true ∧ opcode :: tail = encode i ++ rest := by
  obtain ⟨p, q, rfl, hp, hq, rfl⟩ := readP2_ok h
  exact ⟨hwf p q hp hq, by rw [hencode p q hp hq]; rfl⟩

/-- What is read from byte 0 alone is well-formed and encoded by it. -/
theorem byte0_reads_encoding {b : Byte} {tail rest : List Byte} {i j : Instr} (hwf : j.wf = true)
    (hencode : encode j = [b])
    (h : (Except.ok (j, tail) : Except DecodeError (Instr × List Byte)) = .ok (i, rest)) :
    i.wf = true ∧ b :: tail = encode i ++ rest := by
  obtain ⟨rfl, rfl⟩ := Prod.mk.inj (Except.ok.inj h)
  exact ⟨hwf, by rw [hencode]; rfl⟩

/-- WHAT DECODING CAN ANSWER, said once: a well-formed Command, whose encoding stands at the head of the bytes. -/
theorem decode_ok {bytes rest : List Byte} {i : Instr} (h : decode bytes = .ok (i, rest)) :
    i.wf = true ∧ bytes = encode i ++ rest := by
  have hfits {width : Nat} {keep : Byte} (hkeep : keep.toNat = 2 ^ width - 1) (p : Byte) (hp : p &&& ~~~keep = 0) :
      fits width p = true := (fits_iff_and_not hkeep p).2 hp
  have hfits₂ {width : Nat} {keep : Byte} (hkeep : keep.toNat = 2 ^ width - 1) (p q : Byte) (hp : p &&& ~~~keep = 0)
      (hq : q &&& ~~~keep = 0) : (fits width p && fits width q) = true :=
    Bool.and_eq_true_iff.2 ⟨hfits hkeep p hp, hfits hkeep q hq⟩
  cases bytes with
  | nil => cases h
  | cons b tail =>
    rw [decode] at h
    rcases ite_eq_iff.1 h with ⟨rfl, h⟩ | ⟨-, h⟩
    · exact readP1_reads_encoding (hfits rfl) (fun _ => formatP1_of_clear _) h
    rcases ite_eq_iff.1 h with ⟨rfl, h⟩ | ⟨-, h⟩
    · exact readP1_reads_encoding (hfits rfl) (fun _ => formatP1_of_clear _) h
    rcases ite_eq_iff.1 h with ⟨rfl, h⟩ | ⟨-, h⟩
    · exact readP1_reads_encoding (hfits rfl) (fun _ => formatP1_of_clear _) h
    rcases ite_eq_iff.1 h with ⟨rfl, h⟩ | ⟨-, h⟩
    · exact readP1_reads_encoding (hfits rfl) (fun _ _ => rfl) h
    rcases ite_eq_iff.1 h with ⟨on, h⟩ | ⟨-, h⟩
    · exact byte0_reads_encoding rfl (encode_displayOn_of_byte0 b on) h
    rcases ite_eq_iff.1 h with ⟨rfl, h⟩ | ⟨-, h⟩
    · exact readP1_reads_encoding (hfits rfl) (fun _ _ => rfl) h
    rcases ite_eq_iff.1 h with ⟨control, h⟩ | ⟨-, h⟩
    · exact byte0_reads_encoding rfl (encode_displayControl_of_byte0 b control) h
    rcases ite_eq_iff.1 h with ⟨rfl, h⟩ | ⟨-, h⟩
    · exact readP2_reads_encoding (hfits₂ rfl) (fun _ _ => formatP2_of_clear _) h
    rcases ite_eq_iff.1 h with ⟨rfl, h⟩ | ⟨-, h⟩
    · exact readP2_reads_encoding (hfits₂ rfl) (fun _ _ => formatP2_of_clear _) h
    rcases ite_eq_iff.1 h with ⟨rfl, h⟩ | ⟨-, h⟩
    · exact byte0_reads_encoding rfl rfl h
    rcases ite_eq_iff.1 h with ⟨rfl, h⟩ | ⟨-, h⟩
    · exact readP1_reads_encoding (hfits rfl) (fun _ _ => rfl) h
    rcases ite_eq_iff.1 h with ⟨rfl, h⟩ | ⟨-, h⟩
    · exact readP1_reads_encoding (hfits rfl) (fun _ _ => rfl) h
    rcases ite_eq_iff.1 h with ⟨rfl, h⟩ | ⟨-, h⟩
    · exact readP1_reads_encoding (hfits rfl) (fun _ => formatP1_of_clear _) h
    rcases ite_eq_iff.1 h with ⟨booster, h⟩ | ⟨-, h⟩
    · have hlevel : (Instr.booster (b &&& 0x03)).wf = true := hfits rfl _ (masked_and_not 0x03 b)
      exact byte0_reads_encoding hlevel (encode_booster_of_byte0 b booster) h
    cases h

/-- Settles O6: nothing stands after the encoding, since the call frames the Command. -/
theorem onlyEncodingsDecode : Obligations.OnlyEncodingsDecode := by
  intro bytes i h
  obtain ⟨hwf, hbytes⟩ := decode_ok (decodeFrame_eq_ok_iff.1 h)
  exact ⟨hwf, by rw [hbytes, List.append_nil]⟩

/-- Settles O9: the masked Command is the one a receiver reads, so by O6 it is well-formed and has the same encoding. -/
theorem maskedOperandsEncodeAsWellFormedOnes : Obligations.MaskedOperandsEncodeAsWellFormedOnes := by
  intro i
  have hread := decodeFrame_encode i
  obtain ⟨hwf, hencode⟩ := onlyEncodingsDecode _ _ hread
  exact ⟨i.masked, hwf, hencode, hread, Instr.masked_of_wf⟩

/-! ### The bits the opcode table fixes -/

/-- A byte fits a pair of mask and pattern when its masked bits are those of the pattern. -/
abbrev fitsBits (b : Byte) (bits : Byte × Byte) : Prop := b &&& bits.1 = bits.2

/-- The row of a Command's variant (R75) byte by byte: in each byte the mask, and the pattern under it. -/
def Instr.fixedBits : Instr → List (Byte × Byte)
  | .ayAddress _ => [(0xFF, 0x01), (~~~0x1F, 0)]
  | .bias _ => [(0xFF, 0x30), (~~~0x3F, 0)]
  | .voltageClock _ => [(0xFF, 0x31), (~~~0x3F, 0)]
  | .powerControl _ => [(0xFF, 0x33), (~~~0xFF, 0)]
  | .displayOn _ => [(0xFE, 0x3C)]
  | .startLine _ => [(0xFF, 0x40), (~~~0xFF, 0)]
  | .displayControl _ _ _ _ => [(0xF0, 0x60)]
  | .ayWindow _ _ => [(0xFF, 0x74), (~~~0x1F, 0), (~~~0x1F, 0)]
  | .axWindow _ _ => [(0xFF, 0x75), (~~~0x7F, 0), (~~~0x7F, 0)]
  | .swReset => [(0xFF, 0x76)]
  | .duty _ => [(0xFF, 0x90), (~~~0xFF, 0)]
  | .contrast _ => [(0xFF, 0xB1), (~~~0xFF, 0)]
  | .axAddress _ => [(0xFF, 0xC0), (~~~0x7F, 0)]
  | .booster _ => [(0xFC, 0xFC)]

/-- The table's numbers are those bytes, byte 0 the most significant one (R75). -/
theorem tableRow_eq_fixedBits (i : Instr) :
    tableRow i = ⟨i.fixedBits.length, beNat (i.fixedBits.map Prod.fst), beNat (i.fixedBits.map Prod.snd)⟩ := by
  cases i <;> rfl

/-- Masking a number ending in a byte masks the byte and what stands before it. -/
theorem snoc_byte_and_eq_iff (a m p : Nat) (b k q : Byte) :
    (a * 256 + b.toNat) &&& (m * 256 + k.toNat) = p * 256 + q.toNat ↔ a &&& m = p ∧ b &&& k = q := by
  have hb := b.isLt
  have hk := k.isLt
  have hq := q.isLt
  have hhigh : ((a * 256 + b.toNat) &&& (m * 256 + k.toNat)) / 2 ^ 8 = a &&& m := by
    rw [Nat.and_div_two_pow]
    congr 1 <;> omega
  have hlow : ((a * 256 + b.toNat) &&& (m * 256 + k.toNat)) % 2 ^ 8 = (b &&& k).toNat := by
    rw [Nat.and_mod_two_pow, BitVec.toNat_and]
    congr 1 <;> omega
  rw [← BitVec.toNat_inj, ← hhigh, ← hlow]
  omega

/-- Comparing masked numbers is comparing masked bytes one by one. The accumulators `a`, `m`, `p` stand for the bytes
already read. -/
theorem foldl_and_eq_iff (bytes : List Byte) (bits : List (Byte × Byte)) (a m p : Nat)
    (h : bytes.length = bits.length) :
    bytes.foldl (fun n b => n * 256 + b.toNat) a &&& (bits.map Prod.fst).foldl (fun n b => n * 256 + b.toNat) m =
        (bits.map Prod.snd).foldl (fun n b => n * 256 + b.toNat) p ↔
      a &&& m = p ∧ List.Forall₂ fitsBits bytes bits := by
  induction bytes generalizing bits a m p with
  | nil => obtain rfl := List.length_eq_zero_iff.1 h.symm; simp
  | cons b bytes ih =>
    obtain ⟨c, cs, rfl⟩ := List.exists_cons_of_length_eq_add_one h.symm
    simp only [List.map_cons, List.foldl_cons, List.forall₂_cons]
    rw [ih cs _ _ _ (Nat.succ.inj h), snoc_byte_and_eq_iff, and_assoc]

/-- A byte sequence fits a row when each byte fits its mask and pattern (R75). -/
theorem tableRow_admits_iff (i : Instr) (bytes : List Byte) :
    (tableRow i).admits bytes = true ↔ List.Forall₂ fitsBits bytes i.fixedBits := by
  rw [tableRow_eq_fixedBits, TableRow.admits, Bool.and_eq_true, beq_iff_eq, beq_iff_eq]
  constructor
  · rintro ⟨hlength, hnumber⟩
    exact ((foldl_and_eq_iff bytes _ 0 0 0 hlength).1 hnumber).2
  · intro h
    exact ⟨h.length_eq, (foldl_and_eq_iff bytes _ 0 0 0 h.length_eq).2 ⟨rfl, h⟩⟩

theorem fitsBits_whole {b opcode : Byte} : fitsBits b (0xFF, opcode) ↔ b = opcode := by
  have h : b &&& 0xFF = b := BitVec.and_allOnes
  rw [fitsBits, h]

/-- The bytes that fit a row of format P1 are the opcode and a parameter with no masked-off bit. -/
theorem fitsBits_P1_iff {opcode keep : Byte} {bytes : List Byte} :
    List.Forall₂ fitsBits bytes [(0xFF, opcode), (~~~keep, 0)] ↔ ∃ p, p &&& ~~~keep = 0 ∧ bytes = [opcode, p] := by
  simp only [List.forall₂_cons_right_iff, List.forall₂_nil_right_iff, fitsBits_whole]
  simp [fitsBits]

theorem fitsBits_P2_iff {opcode keep : Byte} {bytes : List Byte} :
    List.Forall₂ fitsBits bytes [(0xFF, opcode), (~~~keep, 0), (~~~keep, 0)] ↔
      ∃ p q, p &&& ~~~keep = 0 ∧ q &&& ~~~keep = 0 ∧ bytes = [opcode, p, q] := by
  simp only [List.forall₂_cons_right_iff, List.forall₂_nil_right_iff, fitsBits_whole]
  simp [fitsBits, and_assoc]

theorem fitsBits_single_iff {bits : Byte × Byte} {bytes : List Byte} :
    List.Forall₂ fitsBits bytes [bits] ↔ ∃ b, fitsBits b bits ∧ bytes = [b] := by
  simp [List.forall₂_cons_right_iff]

theorem fitsBits_displayOn : ∀ on, fitsBits (0x3C ||| flagBit on 0) (0xFE, 0x3C) := by decide

theorem fitsBits_displayControl : ∀ shl adc eon rev,
    fitsBits (0x60 ||| flagBit shl 3 ||| flagBit adc 2 ||| flagBit eon 1 ||| flagBit rev 0) (0xF0, 0x60) := by decide

theorem fitsBits_booster : ∀ level : Byte, fitsBits (0xFC ||| (level &&& 0x03)) (0xFC, 0xFC) := by decide

theorem fitsBits_encode (i : Instr) : List.Forall₂ fitsBits (encode i) i.fixedBits := by
  cases i with
  | ayAddress a => exact fitsBits_P1_iff.2 ⟨_, masked_and_not 0x1F a, rfl⟩
  | bias b => exact fitsBits_P1_iff.2 ⟨_, masked_and_not 0x3F b, rfl⟩
  | voltageClock c => exact fitsBits_P1_iff.2 ⟨_, masked_and_not 0x3F c, rfl⟩
  | powerControl p => exact fitsBits_P1_iff.2 ⟨p, and_not_whole p, rfl⟩
  | displayOn on => exact fitsBits_single_iff.2 ⟨_, fitsBits_displayOn on, rfl⟩
  | startLine line => exact fitsBits_P1_iff.2 ⟨line, and_not_whole line, rfl⟩
  | displayControl shl adc eon rev => exact fitsBits_single_iff.2 ⟨_, fitsBits_displayControl shl adc eon rev, rfl⟩
  | ayWindow first last =>
    exact fitsBits_P2_iff.2 ⟨_, _, masked_and_not 0x1F first, masked_and_not 0x1F last, rfl⟩
  | axWindow first last =>
    exact fitsBits_P2_iff.2 ⟨_, _, masked_and_not 0x7F first, masked_and_not 0x7F last, rfl⟩
  | swReset => exact fitsBits_single_iff.2 ⟨_, fitsBits_whole.2 rfl, rfl⟩
  | duty d => exact fitsBits_P1_iff.2 ⟨d, and_not_whole d, rfl⟩
  | contrast c => exact fitsBits_P1_iff.2 ⟨c, and_not_whole c, rfl⟩
  | axAddress a => exact fitsBits_P1_iff.2 ⟨_, masked_and_not 0x7F a, rfl⟩
  | booster level => exact fitsBits_single_iff.2 ⟨_, fitsBits_booster level, rfl⟩

/-- Bytes with the fixed bits of a format P1 row are read as the Command their parameter makes. -/
theorem decodeFrame_of_fitsBits_P1 (make : Byte → Instr) {opcode keep : Byte} {r : TableRow} {bytes : List Byte}
    (hdecode : ∀ p, decode [opcode, p] = readP1 make keep opcode [p]) (hrow : ∀ p, tableRow (make p) = r)
    (h : List.Forall₂ fitsBits bytes [(0xFF, opcode), (~~~keep, 0)]) :
    ∃ j, decodeFrame bytes = .ok j ∧ tableRow j = r := by
  obtain ⟨p, hp, rfl⟩ := fitsBits_P1_iff.1 h
  exact ⟨make p, decodeFrame_eq_ok_iff.2 ((hdecode p).trans (readP1_of_clear make opcode [] hp)), hrow p⟩

/-- The same for format P2. -/
theorem decodeFrame_of_fitsBits_P2 (make : Byte → Byte → Instr) {opcode keep : Byte} {r : TableRow}
    {bytes : List Byte}
    (hdecode : ∀ p q, decode [opcode, p, q] = readP2 make keep opcode [p, q])
    (hrow : ∀ p q, tableRow (make p q) = r)
    (h : List.Forall₂ fitsBits bytes [(0xFF, opcode), (~~~keep, 0), (~~~keep, 0)]) :
    ∃ j, decodeFrame bytes = .ok j ∧ tableRow j = r := by
  obtain ⟨p, q, hp, hq, rfl⟩ := fitsBits_P2_iff.1 h
  exact ⟨make p q, decodeFrame_eq_ok_iff.2 ((hdecode p q).trans (readP2_of_clear make opcode [] hp hq)), hrow p q⟩

/-- Bytes with the fixed bits of a one-byte row are the encoding of a Command of the row, where each such byte is. -/
theorem decodeFrame_of_fitsBits_single (make : Byte → Instr) {bits : Byte × Byte} {r : TableRow} {bytes : List Byte}
    (hencode : ∀ b, fitsBits b bits → encode (make b) = [b]) (hrow : ∀ b, tableRow (make b).masked = r)
    (h : List.Forall₂ fitsBits bytes [bits]) : ∃ j, decodeFrame bytes = .ok j ∧ tableRow j = r := by
  obtain ⟨b, hb, rfl⟩ := fitsBits_single_iff.1 h
  exact ⟨(make b).masked, hencode b hb ▸ decodeFrame_encode (make b), hrow b⟩

theorem decodeFrame_of_fitsBits {i : Instr} {bytes : List Byte} (h : List.Forall₂ fitsBits bytes i.fixedBits) :
    ∃ j, decodeFrame bytes = .ok j ∧ tableRow j = tableRow i := by
  cases i with
  | ayAddress => exact decodeFrame_of_fitsBits_P1 .ayAddress (fun _ => rfl) (fun _ => rfl) h
  | bias => exact decodeFrame_of_fitsBits_P1 .bias (fun _ => rfl) (fun _ => rfl) h
  | voltageClock => exact decodeFrame_of_fitsBits_P1 .voltageClock (fun _ => rfl) (fun _ => rfl) h
  | powerControl => exact decodeFrame_of_fitsBits_P1 .powerControl (fun _ => rfl) (fun _ => rfl) h
  | startLine => exact decodeFrame_of_fitsBits_P1 .startLine (fun _ => rfl) (fun _ => rfl) h
  | duty => exact decodeFrame_of_fitsBits_P1 .duty (fun _ => rfl) (fun _ => rfl) h
  | contrast => exact decodeFrame_of_fitsBits_P1 .contrast (fun _ => rfl) (fun _ => rfl) h
  | axAddress => exact decodeFrame_of_fitsBits_P1 .axAddress (fun _ => rfl) (fun _ => rfl) h
  | ayWindow => exact decodeFrame_of_fitsBits_P2 .ayWindow (fun _ _ => rfl) (fun _ _ => rfl) h
  | axWindow => exact decodeFrame_of_fitsBits_P2 .axWindow (fun _ _ => rfl) (fun _ _ => rfl) h
  | displayOn =>
    exact decodeFrame_of_fitsBits_single (fun b => .displayOn (b.getLsbD 0)) encode_displayOn_of_byte0 (fun _ => rfl) h
  | displayControl =>
    exact decodeFrame_of_fitsBits_single
      (fun b => .displayControl (b.getLsbD 3) (b.getLsbD 2) (b.getLsbD 1) (b.getLsbD 0))
      encode_displayControl_of_byte0 (fun _ => rfl) h
  | swReset =>
    exact decodeFrame_of_fitsBits_single (fun _ => .swReset) (fun b hb => by rw [fitsBits_whole.1 hb]; rfl)
      (fun _ => rfl) h
  | booster =>
    exact decodeFrame_of_fitsBits_single (fun b => .booster (b &&& 0x03)) encode_booster_of_byte0 (fun _ => rfl) h

/-- Settles O7: an encoding has its row's fixed bits, and bytes that have them are read with the parameters in them. -/
theorem tableRowsAdmitExactlyTheirEncodings : Obligations.TableRowsAdmitExactlyTheirEncodings := by
  refine ⟨fun bytes i h => ?_, fun bytes i h => ?_⟩
  · obtain ⟨-, rfl⟩ := onlyEncodingsDecode _ _ h
    exact (tableRow_admits_iff i _).2 (fitsBits_encode i)
  · exact decodeFrame_of_fitsBits ((tableRow_admits_iff i bytes).1 h)

/-! ### Byte 0 -/

/-- The encoding has the byte count of its variant (R65). -/
theorem length_encode (i : Instr) : (encode i).length = byteCount i := by
  cases i <;> rfl

/-- Each value of R66's table, with zero parameters, is read as a Command that takes the table's total bytes. -/
theorem decode_firstBytes : ∀ e ∈ firstBytes, 1 ≤ e.2 ∧ e.2 ≤ 3 ∧
    (decode [e.1, 0, 0]).toOption.map Prod.snd = some ([e.1, 0, 0].drop e.2) := by decide

/-- The table of R66 has every value that one of the rows tests byte 0 for. -/
theorem mem_firstBytes_of_row : ∀ b : Byte,
    b = 0x01 ∨ b = 0x30 ∨ b = 0x31 ∨ b = 0x33 ∨ b &&& 0xFE = 0x3C ∨ b = 0x40 ∨ b &&& 0xF0 = 0x60 ∨ b = 0x74 ∨
      b = 0x75 ∨ b = 0x76 ∨ b = 0x90 ∨ b = 0xB1 ∨ b = 0xC0 ∨ b &&& 0xFC = 0xFC → b ∈ firstBytes.map Prod.fst := by
  decide

theorem decode_of_not_mem_firstBytes {b : Byte} (rest : List Byte) (h : b ∉ firstBytes.map Prod.fst) :
    decode (b :: rest) = .error (.notACommand b) := by
  have hrow := mt (mem_firstBytes_of_row b) h
  simp only [not_or] at hrow
  obtain ⟨ay, bias, clock, power, on, line, control, ayw, axw, sw, duty, contrast, ax, booster⟩ := hrow
  rw [decode, if_neg ay, if_neg bias, if_neg clock, if_neg power, if_neg on, if_neg line, if_neg control, if_neg ayw,
    if_neg axw, if_neg sw, if_neg duty, if_neg contrast, if_neg ax, if_neg booster]

/-- A Command read from `n` bytes is encoded by them, so its count is `n` and its byte 0 is the first of them. -/
theorem encode_of_decode_drop {bytes : List Byte} {n : Nat} {i : Instr} (h : decode bytes = .ok (i, bytes.drop n)) :
    encode i = bytes.take n := by
  obtain ⟨-, hbytes⟩ := decode_ok h
  exact List.append_cancel_right (hbytes.symm.trans (List.take_append_drop n bytes).symm)

/-- Settles O8: the 33 values are tried one by one, and what was read from each is its own encoding. -/
theorem thirtyThreeFirstBytes : Obligations.ThirtyThreeFirstBytes := by
  refine ⟨by decide, fun b n hmem => ?_, fun b rest h => decode_of_not_mem_firstBytes rest h⟩
  obtain ⟨hpos, hle, hread⟩ := decode_firstBytes (b, n) hmem
  dsimp only at hpos hle hread
  cases hdecode : decode [b, 0, 0] with
  | error e => rw [hdecode] at hread; cases hread
  | ok r =>
    obtain ⟨i, rest⟩ := r
    rw [hdecode] at hread
    obtain rfl : rest = [b, 0, 0].drop n := Option.some.inj hread
    have hencode : encode i = [b, 0, 0].take n := encode_of_decode_drop hdecode
    refine ⟨i, rfl, ?_, ?_⟩
    · rw [← length_encode, hencode, List.length_take]
      exact Nat.min_eq_left hle
    · rw [hencode, List.head?_take, if_neg (by omega)]
      rfl

/-- Settles O10: each word is computed. -/
theorem wordsOfTheSpecDecode : Obligations.WordsOfTheSpecDecode := by
  unfold Obligations.WordsOfTheSpecDecode
  decide

end Sys2Proof

/-! SUPPORT. Executing a Command: how many bytes it hands over, which step executes it, and that a sound state's step
has a meaning. -/

namespace Sys2Proof.Machine

/-! ### The step that executes a Command -/

/-- Settles O4: the count is the variant's, and the one call carries the encoding. -/
theorem byteCountDependsOnVariantOnly : Obligations.ByteCountDependsOnVariantOnly := by
  refine fun i => ⟨(length_encode i).trans (by cases i <;> rfl), fun s => ?_⟩
  obtain ⟨htrace, -⟩ := s.txCmd_recordsCall (encode i)
  exact ⟨_, _, _, exec_eq_txCmd i s, htrace, rfl⟩

/-- An operation at a send executes the Command and checks for the end. -/
theorem runOp_send {o : HostOp} {u : State} {i : Instr} (h : o.callAt u.cfg u.stepIdx = some (.send i)) :
    runOp o u = mapNext (exec i u) (endIfDone fun k => o.callAt u.cfg k) := by
  have hflush : o ≠ .flush := by
    rintro rfl
    simp [HostOp.callAt, flushCalls] at h
  rw [runOp_eq_runSequence (fun ho => absurd ho hflush) (by simp [h])]
  simp only [runSequence, h, perform]

/-- Settles O15: whichever way the operation was entered, its step is a step of its sequence, which stands at a send. -/
theorem stepRunsTheCommand : Obligations.StepRunsTheCommand := by
  refine ⟨?bytes, ?send, ?initBegins, ?initGoesOn, ?drawAreaBegins, ?drawAreaGoesOn, ?displayOn⟩
  case bytes => exact fun s bytes rest i hr hq hd => (step_encoded hr hq hd).trans (runOp_send rfl)
  case send => exact fun s rest i h => (step_invokes h rfl).trans (runOp_send rfl)
  case initBegins => exact fun s rest h => (step_invokes h rfl).trans (runOp_send rfl)
  case initGoesOn => exact fun s i hr hc => (step_running hr).trans (runOp_send hc)
  case drawAreaBegins => exact fun s sx sy ex ey rest h => (step_invokes h rfl).trans (runOp_send rfl)
  case drawAreaGoesOn => exact fun s sx sy ex ey i hr hc => (step_running hr).trans (runOp_send hc)
  case displayOn => exact fun s rest on h => (step_invokes h rfl).trans (runOp_send rfl)

/-! ### A sound state's step has a meaning -/

theorem mapNext_isNext {a : StepOutcome} (f : State → State) (h : ∃ t, a = .next t) : ∃ t, mapNext a f = .next t := by
  obtain ⟨t, rfl⟩ := h
  exact ⟨f t, rfl⟩

/-- A call whose buffer bytes exist has a next state, whatever the environment answers. -/
theorem perform_isNext {c : Call} {s : State} (hin : c.within s.cfg) : ∃ t, perform c s = .next t := by
  cases c with
  | send i => exact ⟨_, exec_eq_txCmd i s⟩
  | chunk start length =>
    have hle : start + length ≤ s.cfg.bytes := hin
    exact ⟨s.txData ((List.range length).map fun j => s.fbByte (start + j)), by simp [perform, State.memRead, hle]⟩
  | data | pin | delay => exact ⟨_, rfl⟩

theorem runSequence_isNext {calls : Nat → Option Call} {s : State}
    (hin : ∀ c, calls s.stepIdx = some c → c.within s.cfg) : ∃ t, runSequence calls s = .next t := by
  unfold runSequence
  split
  · exact ⟨_, rfl⟩
  · next c hc => exact mapNext_isNext _ (perform_isNext (hin c hc))

/-- The calls of an operation take no bytes from outside the buffer: only those of `flush` take any, and the last
chunk is cut to what is left (R46). -/
theorem HostOp.callAt_within {c : Config} {o : HostOp} {k : Nat} {d : Call} (h : o.callAt c k = some d) :
    d.within c := by
  have hlist {calls : List Call} (hall : ∀ e ∈ calls, e.within c) (hd : calls[k]? = some d) : d.within c :=
    hall d (List.mem_of_getElem? hd)
  cases o with
  | send i => exact hlist (by simp [sendCalls, Call.within]) h
  | reset => exact hlist (by simp [resetCalls, Call.within]) h
  | init => exact hlist (initCalls_within c) h
  | draw buffer => exact hlist (by simp [drawCalls, Call.within]) h
  | setDisplayOn on => exact hlist (by simp [setDisplayOnCalls, Call.within]) h
  | setDrawArea sx sy ex ey => exact hlist (by simp [setDrawAreaCalls, Call.within]) h
  | flush =>
    obtain ⟨hlt, hd⟩ := Option.ite_none_right_eq_some.1 h
    obtain rfl := Option.some.inj hd
    simp only [Call.within, chunkLength, chunkStart] at hlt ⊢
    omega
  | encode | clear | setPixel | drawPixels => cases h

/-- Every pixel of the display has its byte in the buffer (R40), so setting one has a next state. -/
theorem plot_isNext {s : State} (hc : s.cfg.wf) (x y : Nat) (value : Bool) : ∃ t, plot x y value s = .next t := by
  obtain ⟨-, -, -, hbands, -⟩ := hc
  cases hp : pixelInside s.cfg x y with
  | false => exact ⟨s, plot_outside value hp⟩
  | true =>
    have hxy : x < s.cfg.width ∧ y < s.cfg.height := by simpa [pixelInside] using hp
    exact ⟨_, plot_inside value hp (pixelIndex_lt_bytes hbands hxy.1 hxy.2)⟩

theorem applyEvent_isNext {s : State} (hc : s.cfg.wf) (e : PixelEvent) : ∃ t, applyEvent e s = .next t := by
  unfold applyEvent
  split
  · exact plot_isNext hc _ _ _
  · exact ⟨s, rfl⟩

/-- Under R5's constraints every operation has a next step, whatever the state. -/
theorem runOp_isNext {s : State} (hc : s.cfg.wf) (o : HostOp) : ∃ t, runOp o s = .next t := by
  cases o with
  | encode | clear => exact ⟨_, rfl⟩
  | send i => exact runSequence_isNext fun _ => HostOp.callAt_within (o := .send i)
  | reset => exact runSequence_isNext fun _ => HostOp.callAt_within (o := .reset)
  | init => exact runSequence_isNext fun _ => HostOp.callAt_within (o := .init)
  | draw buffer => exact runSequence_isNext fun _ => HostOp.callAt_within (o := .draw buffer)
  | setDisplayOn on => exact runSequence_isNext fun _ => HostOp.callAt_within (o := .setDisplayOn on)
  | setDrawArea sx sy ex ey => exact runSequence_isNext fun _ => HostOp.callAt_within (o := .setDrawArea sx sy ex ey)
  | setPixel x y value => exact mapNext_isNext _ (plot_isNext hc x y value)
  | flush =>
    have hchunk : s.cfg.chunk ≠ 0 := by
      obtain ⟨-, -, -, -, -, hpos⟩ := hc
      omega
    simp only [runOp, opFlush, if_neg hchunk]
    exact runSequence_isNext fun _ => HostOp.callAt_within (o := .flush)
  | drawPixels events =>
    match events with
    | [] => exact ⟨_, rfl⟩
    | [e] => exact mapNext_isNext _ (applyEvent_isNext hc e)
    | e :: _ :: _ => exact mapNext_isNext _ (applyEvent_isNext hc e)

/-- What the sequencer gives no meaning: a buffer operation invoked in Basic mode, and bytes that are no Command. -/
theorem fetch_refuse {s : State} {r : Refusal} (h : fetch s = .refuse r) :
    s.run.running = none ∧
    ((∃ o rest, s.run.requests = .op o :: rest ∧ o.availableIn s.cfg.mode = false ∧ r = .absentInBasic o) ∨
      (∃ bytes rest e, s.run.requests = .encoded bytes :: rest ∧ decodeArray bytes = .error e ∧
        r = .notACommand e)) := by
  unfold fetch at h
  cases hr : s.run.running with
  | some o => simp [hr] at h
  | none =>
    refine ⟨rfl, ?_⟩
    cases hq : s.run.requests with
    | nil => simp [hr, hq] at h
    | cons q rest =>
      cases q with
      | op o =>
        cases ha : o.availableIn s.cfg.mode with
        | true => simp [hr, hq, ha] at h
        | false => exact .inl ⟨o, rest, rfl, ha, by simpa [hr, hq, ha] using h.symm⟩
      | encoded bytes =>
        cases hd : decodeArray bytes with
        | ok i => simp [hr, hq, hd] at h
        | error e => exact .inr ⟨bytes, rest, e, rfl, hd, by simpa [hr, hq, hd] using h.symm⟩

/-- Every operation exists in Buffered mode (R128). -/
theorem HostOp.basic_of_not_availableIn {m : Mode} {o : HostOp} (h : o.availableIn m = false) : m = .basic := by
  cases m with
  | basic => rfl
  | buffered => cases o <;> cases h

/-- Under R5's constraints a step that answers no next state is one the sequencer refused. -/
theorem step_isNext_or_refused {s : State} (hc : s.cfg.wf) :
    (∃ t, step s = .next t) ∨ ∃ r, fetch s = .refuse r ∧ step s = .refused r := by
  cases hf : fetch s with
  | idle => exact .inl ⟨s, by simp only [step, sequencerStep, hf]⟩
  | run o u =>
    obtain ⟨-, hcfg, -⟩ := fetch_run_frame hf
    obtain ⟨t, ht⟩ := runOp_isNext (hcfg ▸ hc) o
    exact .inl ⟨t, by simp only [step, sequencerStep, hf, ht]⟩
  | refuse r => exact .inr ⟨r, rfl, by simp only [step, sequencerStep, hf]⟩

/-- Settles O52: under R5's constraints every operation has a next step, so only the sequencer's two refusals remain. -/
theorem soundStatesNeverFault : Obligations.SoundStatesNeverFault := by
  intro s ⟨hc, _⟩
  rcases step_isNext_or_refused hc with ⟨t, ht⟩ | ⟨q, hq, hstep⟩
  · simp [ht]
  · refine ⟨fun r h => (nomatch hstep.symm.trans h), fun r h => ?_⟩
    obtain rfl : q = r := Host.Outcome.refused.inj (hstep.symm.trans h)
    obtain ⟨hr, ⟨o, rest, hop, ha, hq⟩ | hbytes⟩ := fetch_refuse hq
    · have hbasic := HostOp.basic_of_not_availableIn ha
      exact ⟨hr, .inl ⟨o, rest, hop, hbasic, hbasic ▸ ha, hq⟩⟩
    · exact ⟨hr, .inr hbytes⟩

end Sys2Proof.Machine

/-! SUPPORT. The bytes of each Command, executing a Command as the one call it is, the Command Encoder's operations, and that
what was done before changes no step. -/

namespace Sys2Proof

/-! ### The bytes of a Command -/

/-- Settles O1: the mask of each operand is the one its opcode is written with. -/
theorem encodingOfOneParameterCommands : Obligations.EncodingOfOneParameterCommands :=
  fun _ => ⟨rfl, rfl, rfl, rfl, rfl, rfl, rfl, rfl⟩

/-- A flag is one bit, at its position (R64). -/
theorem getElem_flagBit (flag : Bool) (position : Nat) {i : Nat} (hi : i < 8) :
    (flagBit flag position)[i] = (flag && decide (position = i)) := by
  cases flag with
  | false => simp [flagBit]
  | true =>
    have hone : flagBit true position = BitVec.ofNat 8 (2 ^ position) := congrArg _ (Nat.one_shiftLeft position)
    rw [hone, ← BitVec.getLsbD_eq_getElem, BitVec.getLsbD_ofNat, Nat.testBit_two_pow, decide_eq_true hi]

/-- The fixed high half of a byte is not touched by a flag in its low half (R62). -/
theorem flagBit_and_highHalf (flag : Bool) {position : Nat} (hposition : position < 4) :
    flagBit flag position &&& 0xF0 = 0 := by
  have hlow : ∀ (f : Bool) (p : Fin 4), flagBit f p &&& 0xF0 = 0 := by decide
  exact hlow flag ⟨position, hposition⟩

/-- The four flags of DisplayControl stand in bits 3 to 0 under the fixed bits 0110 (R86). -/
theorem displayControl_byte (shl adc eon rev : Bool) :
    ∃ b : Byte, encode (.displayControl shl adc eon rev) = [b] ∧
      b.getLsbD 3 = shl ∧ b.getLsbD 2 = adc ∧ b.getLsbD 1 = eon ∧ b.getLsbD 0 = rev ∧ b &&& 0xF0 = 0x60 := by
  refine ⟨_, rfl, ?shl, ?adc, ?eon, ?rev, ?fixed⟩
  case fixed =>
    simp only [BitVec.and_or_distrib_right, flagBit_and_highHalf, Nat.reduceLT]
    rfl
  case shl | adc | eon | rev => simp [getElem_flagBit]

/-- The byte of DisplayControl as a number, each flag with the weight of its bit (R62, R86). -/
theorem encode_displayControl (shl adc eon rev : Bool) :
    encode (.displayControl shl adc eon rev) =
      [0x60 ||| BitVec.ofNat 8 (8 * shl.toNat + 4 * adc.toNat + 2 * eon.toNat + rev.toNat)] := by
  revert shl adc eon rev
  decide

/-- Settles O2: the flags of DisplayControl are placed bit by bit; the other two bytes are written out. -/
theorem encodingOfEmbeddedFieldCommands : Obligations.EncodingOfEmbeddedFieldCommands :=
  ⟨⟨rfl, rfl⟩, displayControl_byte, fun _ => rfl⟩

/-- Settles O3: each window operand is masked on its own. -/
theorem encodingOfWindowsAndReset : Obligations.EncodingOfWindowsAndReset :=
  ⟨fun _ _ => ⟨rfl, rfl⟩, rfl⟩

end Sys2Proof

namespace Sys2Proof.Machine

/-! ### The one call of a Command -/

theorem State.txCmd_accepted {s : State} (bytes : List Byte) (h : s.nextTx = .ok) :
    s.txCmd bytes = s.afterAccepted (.cmd bytes .ok) := State.txCmd_ok h

theorem State.txCmd_failed {s : State} {t : TransportFault} (bytes : List Byte) (h : s.nextTx = .fault t) :
    s.txCmd bytes = s.afterFailed (.cmd bytes (.fault t)) t := State.txCmd_fault h

/-- An accepted Command is one call with its bytes, and nothing else changes (R95). -/
theorem exec_accepted {i : Instr} {bytes : List Byte} {s : State} (hbytes : encode i = bytes) (h : s.nextTx = .ok) :
    exec i s = .next (s.afterAccepted (.cmd bytes .ok)) := by
  rw [exec_eq_txCmd, hbytes, State.txCmd_accepted bytes h]

/-- Settles O14: executing any Command is one call with its encoding, and a failed call takes the fault. -/
theorem failedCommandTakesTheFault : Obligations.FailedCommandTakesTheFault := by
  intro i s t h
  rw [exec_eq_txCmd, State.txCmd_failed _ h]

/-- Settles O11: each Command is one call, with the two bytes of its encoding. -/
theorem oneParameterCommandsComplete : Obligations.OneParameterCommandsComplete := by
  intro s v h
  obtain ⟨hayAddress, hbias, hvoltageClock, hpowerControl, hstartLine, hduty, hcontrast, haxAddress⟩ :=
    encodingOfOneParameterCommands v
  exact ⟨exec_accepted hayAddress h, exec_accepted hbias h, exec_accepted hvoltageClock h,
    exec_accepted hpowerControl h, exec_accepted hstartLine h, exec_accepted hduty h, exec_accepted hcontrast h,
    exec_accepted haxAddress h⟩

/-- Settles O12: each Command is one call, with the one byte of its encoding. -/
theorem embeddedFieldCommandsComplete : Obligations.EmbeddedFieldCommandsComplete := by
  intro s h
  obtain ⟨⟨hoff, hon⟩, -, hbooster⟩ := encodingOfEmbeddedFieldCommands
  exact ⟨exec_accepted hoff h, exec_accepted hon h,
    fun shl adc eon rev => exec_accepted (encode_displayControl shl adc eon rev) h,
    fun level => exec_accepted (hbooster level) h⟩

/-- Settles O13: each Command is one call, with the bytes of its encoding. -/
theorem windowAndResetCommandsComplete : Obligations.WindowAndResetCommandsComplete := by
  intro s h
  obtain ⟨hwindows, hreset⟩ := encodingOfWindowsAndReset
  refine ⟨fun first last => ?_, exec_accepted hreset h⟩
  obtain ⟨hay, hax⟩ := hwindows first last
  exact ⟨exec_accepted hay h, exec_accepted hax h⟩

/-! ### The Command Encoder's operations -/

/-- Settles O16: the step begins the operation and ends it with the padded array, whose Command's bytes are as many as its
variant has. -/
theorem encodeOperationIsPure : Obligations.EncodeOperationIsPure := by
  intro s c rest h
  rw [step_invokes h rfl, ← length_encode]
  rfl

/-- A fault has ended the operation, so nothing is left to end. -/
theorem endIfDone_ended {calls : Nat → Option Call} {s : State} (hr : s.run.running = none) :
    endIfDone calls s = s := by
  simp [endIfDone, hr]

section

variable {s : State} {o : HostOp} {rest : List Request} {c : Instr}

/-- An operation whose only call is a send, accepted: it ends with `Ok` in its first step. -/
theorem step_onlySend_accepted (h : s.invokes o rest) (ha : o.availableIn s.cfg.mode = true)
    (hsend : o.callAt s.cfg 0 = some (.send c)) (honly : o.callAt s.cfg 1 = none) (hok : s.txAnswer 0 = .ok) :
    step s = .next (((s.begin o rest).afterAccepted (.cmd (encode c) .ok)).finish .ok) := by
  have hexec := exec_accepted (s := s.begin o rest) (i := c) rfl (s.nextTx_eq.trans hok)
  rw [step_invokes h ha, runOp_send (u := s.begin o rest) hsend, hexec]
  exact congrArg Host.Outcome.next (endIfDone_last rfl honly)

/-- An operation whose first call is a send, failed: it ends with the transport's value in its first step. -/
theorem step_firstSend_failed {v : TransportFault} (h : s.invokes o rest) (ha : o.availableIn s.cfg.mode = true)
    (hsend : o.callAt s.cfg 0 = some (.send c)) (hfault : s.txAnswer 0 = .fault v) :
    step s = .next ((s.begin o rest).afterFailed (.cmd (encode c) (.fault v)) v) := by
  have hexec := failedCommandTakesTheFault c (s.begin o rest) v (s.nextTx_eq.trans hfault)
  rw [step_invokes h ha, runOp_send (u := s.begin o rest) hsend, hexec]
  exact congrArg Host.Outcome.next (endIfDone_ended rfl)

end

/-- Settles O17: `send` is an operation whose only call is a send. -/
theorem sendMakesOneCommandCall : Obligations.SendMakesOneCommandCall := by
  intro s c rest h
  refine ⟨fun hok => ⟨_, step_onlySend_accepted h rfl rfl rfl hok, ?ends, ?txOnly, rfl⟩,
    fun v hfault => ⟨_, step_firstSend_failed h rfl rfl hfault, ?endsErr, ?txOnlyErr, rfl⟩⟩
  case ends | endsErr => exact ⟨rfl, rfl, rfl, rfl⟩
  case txOnly | txOnlyErr => exact ⟨rfl, rfl, List.drop_one.symm, rfl, rfl, rfl⟩

/-! ### The past -/

/-- Neither trace nor results are among the inputs of a step (R31). -/
theorem State.withPast_alone (s : State) (trace : List Event) (results : List OpResult) :
    (s.withPast trace results).alone = s.alone := rfl

/-- What comes after another past is the same, after that past. -/
theorem State.after_withPast (p s : State) (trace : List Event) (results : List OpResult) :
    p.after (s.withPast trace results).run.begun =
      (p.after s.run.begun).withPast (trace ++ p.run.trace) (results ++ p.run.results) := rfl

/-- Settles O44: a step is the step from its inputs alone, laid after the past, and the past is no input. -/
theorem thePastChangesNothing : Obligations.ThePastChangesNothing := by
  intro s t h
  rw [step_eq_alone_after] at h
  obtain ⟨p, hp, rfl⟩ := mapNext_next h
  refine ⟨p.run.trace, p.run.results, rfl, rfl, fun trace results => ?_⟩
  rw [step_eq_alone_after, State.withPast_alone, hp, ← State.after_withPast]
  rfl

end Sys2Proof.Machine

/-! SUPPORT. The Controller Handle's operations: what a failing call leaves, the state after an operation whose calls are all
accepted or stop at the first that fails, and that every operation ends. -/

namespace Sys2Proof.Machine

/-! ### A call that fails -/

/-- The event of a call, with the answer it gets (R8). -/
def State.callEvent (s : State) : Call → Event
  | .send i => .cmd (encode i) s.nextTx
  | .data bytes => .data bytes s.nextTx
  | .chunk start length => .data ((List.range length).map fun j => s.fbByte (start + j)) s.nextTx
  | .pin level => .pin level s.nextPin
  | .delay ms => .wait ms

/-- `s` after a failing call with this event: one answer taken, the operation ended with `Err`, `step` where it was, nothing
else changed (R143 to R145). -/
def State.interrupted (s : State) (e : Event) (f : OpFault) : State :=
  State.raise { s.recorded [e] with stepIdx := s.stepIdx } f

theorem State.interrupted_of_transport (s : State) {e : Event} (f : OpFault) (ht : e.ofTransport = true)
    (hp : e.ofPin = false) : s.interrupted e f = ((s.emit e).takeTx).raise f := by
  simp [State.interrupted, State.recorded, State.emit, State.takeTx, ht, hp]

theorem State.interrupted_of_pin (s : State) {e : Event} (f : OpFault) (ht : e.ofTransport = false)
    (hp : e.ofPin = true) : s.interrupted e f = ((s.emit e).takePin).raise f := by
  simp [State.interrupted, State.recorded, State.emit, State.takePin, ht, hp]

theorem State.txCmd_interrupted {s : State} {bytes : List Byte} {f : OpFault}
    (hf : (Event.cmd bytes s.nextTx).raised = some f) :
    s.txCmd bytes = s.interrupted (.cmd bytes s.nextTx) f := by
  cases h : s.nextTx with
  | ok => simp [h, Event.raised] at hf
  | fault t =>
    obtain rfl : OpFault.transport t = f := by simpa [h, Event.raised] using hf
    rw [State.txCmd_fault h, State.interrupted_of_transport s _ rfl rfl]

theorem State.txData_interrupted {s : State} {bytes : List Byte} {f : OpFault}
    (hf : (Event.data bytes s.nextTx).raised = some f) :
    s.txData bytes = s.interrupted (.data bytes s.nextTx) f := by
  cases h : s.nextTx with
  | ok => simp [h, Event.raised] at hf
  | fault t =>
    obtain rfl : OpFault.transport t = f := by simpa [h, Event.raised] using hf
    rw [State.txData_fault h, State.interrupted_of_transport s _ rfl rfl]

theorem State.pinSet_interrupted {s : State} {level : Level} {f : OpFault}
    (hf : (Event.pin level s.nextPin).raised = some f) :
    s.pinSet level = s.interrupted (.pin level s.nextPin) f := by
  cases h : s.nextPin with
  | ok => simp [h, Event.raised] at hf
  | fault e =>
    obtain rfl : OpFault.pin e = f := by simpa [h, Event.raised] using hf
    rw [State.pinSet_fault h, State.interrupted_of_pin s _ rfl rfl]

/-- A failing call records its event and takes its fault, whichever call it is. -/
theorem perform_failed {c : Call} {s : State} {f : OpFault} (hin : c.within s.cfg)
    (hf : (s.callEvent c).raised = some f) : perform c s = .next (s.interrupted (s.callEvent c) f) := by
  cases c with
  | send i => exact (exec_eq_txCmd i s).trans (congrArg Host.Outcome.next (State.txCmd_interrupted hf))
  | data bytes => exact congrArg Host.Outcome.next (State.txData_interrupted hf)
  | chunk start length =>
    have hle : start + length ≤ s.cfg.bytes := hin
    simp only [perform, State.memRead, if_pos hle]
    exact congrArg Host.Outcome.next (State.txData_interrupted hf)
  | pin level => exact congrArg Host.Outcome.next (State.pinSet_interrupted hf)
  | delay ms => cases hf

/-- One step of a running operation whose call fails: the operation ends with the fault. -/
theorem step_failed {o : HostOp} {s : State} {c : Call} {f : OpFault} (hr : s.run.running = some o)
    (hchunk : o = .flush → s.cfg.chunk ≠ 0) (hc : o.callAt s.cfg s.stepIdx = some c)
    (hf : (s.callEvent c).raised = some f) : step s = .next (s.interrupted (s.callEvent c) f) := by
  rw [step_running hr, runOp_eq_runSequence hchunk (by simp [hc])]
  simp only [runSequence, hc, perform_failed (HostOp.callAt_within hc) hf, mapNext]
  exact congrArg Host.Outcome.next (endIfDone_ended rfl)

/-! ### A sequence up to one of its positions -/

theorem State.recorded_nil (s : State) : s.recorded [] = s := by simp [State.recorded]

/-- A running operation whose next `n` calls are accepted, and which has a call after them, stands at that call. -/
theorem steps_granted {o : HostOp} {s : State} {calls : List Call} {n : Nat} (hr : s.run.running = some o)
    (hchunk : o = .flush → s.cfg.chunk ≠ 0) (hcalls : ∀ k, o.callAt s.cfg (s.stepIdx + k) = calls[k]?)
    (hn : n < calls.length) (hok : s.grants ((calls.take n).map s.acceptedEvent)) :
    steps n s = .next (s.recorded ((calls.take n).map s.acceptedEvent)) := by
  induction n generalizing s calls with
  | zero => simp [steps, State.recorded_nil]
  | succ n ih =>
    match calls with
    | [] => cases hn
    | c :: cs =>
      have hlt : n < cs.length := Nat.lt_of_succ_lt_succ hn
      obtain ⟨hfirst, hrest⟩ := State.grants_cons hok
      have hmore : o.callAt s.cfg (s.stepIdx + 1) = some cs[0] := by simp [hcalls 1]
      have hstep : step s = .next (s.recorded [s.acceptedEvent c]) :=
        (step_accepted hr hchunk (hcalls 0) (HostOp.callAt_within (hcalls 0)) hfirst).trans
          (congrArg Host.Outcome.next (endIfDone_more hmore))
      have hevents : (s.recorded [s.acceptedEvent c]).acceptedEvent = s.acceptedEvent := s.recorded_acceptedEvent _
      have hnext := ih (s := s.recorded [s.acceptedEvent c]) hr hchunk
        (fun k => by simpa [Nat.add_right_comm, ← Nat.add_assoc] using hcalls (k + 1)) hlt (by rwa [hevents])
      rw [hevents, ← State.recorded_cons] at hnext
      exact (steps_succ n hstep).trans hnext

/-- The host invokes `o`, which the mode has and whose sequence is `calls`. -/
structure State.performs (s : State) (o : HostOp) (rest : List Request) (calls : List Call) : Prop where
  invoked : s.invokes o rest
  available : o.availableIn s.cfg.mode = true
  chunked : o = .flush → s.cfg.chunk ≠ 0
  sequence : ∀ k, o.callAt s.cfg k = calls[k]?

theorem State.begin_acceptedEvent (s : State) (o : HostOp) (rest : List Request) :
    (s.begin o rest).acceptedEvent = s.acceptedEvent := by
  funext c
  cases c <;> rfl

section

variable {s : State} {o : HostOp} {rest : List Request} {calls : List Call}

/-- An operation whose calls, at least one, are all accepted ends with `Ok`, having recorded their events. -/
theorem State.performs.steps_accepted (h : s.performs o rest calls) (hne : calls ≠ [])
    (hok : s.grants (calls.map s.acceptedEvent)) :
    steps calls.length s = .next (((s.begin o rest).recorded (calls.map s.acceptedEvent)).finish .ok) := by
  obtain ⟨c, cs, rfl⟩ := List.exists_cons_of_ne_nil hne
  exact steps_invokes_accepted h.invoked h.available h.chunked h.sequence
    (fun d hd => by
      obtain ⟨k, hk⟩ := List.mem_iff_getElem?.1 hd
      exact HostOp.callAt_within ((h.sequence k).trans hk)) hok

/-- An operation whose call `n` is the first to fail ends there, with the events before it and the failing one. -/
theorem State.performs.steps_failed {n : Nat} {c : Call} {e : Event} {f : OpFault} (h : s.performs o rest calls)
    (hn : calls[n]? = some c) (hok : s.grants ((calls.take n).map s.acceptedEvent))
    (he : (s.recorded ((calls.take n).map s.acceptedEvent)).callEvent c = e) (hf : e.raised = some f) :
    steps (n + 1) s =
      .next (((s.begin o rest).recorded ((calls.take n).map s.acceptedEvent)).interrupted e f) := by
  subst he
  obtain ⟨hlt, -⟩ := List.getElem?_eq_some_iff.1 hn
  have hreach := steps_granted (n := n) (s.begin_running o rest) h.chunked (by simpa using h.sequence) hlt
    (by rw [State.begin_acceptedEvent]; exact hok)
  rw [State.begin_acceptedEvent] at hreach
  have hcall : o.callAt s.cfg (0 + ((calls.take n).map s.acceptedEvent).length) = some c := by
    rw [List.length_map, List.length_take, Nat.min_eq_left hlt.le, Nat.zero_add, h.sequence, hn]
  have hevent : ((s.begin o rest).recorded ((calls.take n).map s.acceptedEvent)).callEvent c =
      (s.recorded ((calls.take n).map s.acceptedEvent)).callEvent c := by
    cases c <;> rfl
  have hlast := step_failed (o := o) (s := (s.begin o rest).recorded ((calls.take n).map s.acceptedEvent))
    rfl h.chunked hcall (hevent ▸ hf)
  rw [hevent] at hlast
  rw [steps_invokes n h.invoked h.available, steps_add n 1 hreach]
  exact steps_succ 0 hlast

end

/-! ### The effect of a whole operation -/

theorem State.nextTx_recorded (s : State) (es : List Event) :
    (s.recorded es).nextTx = s.txAnswer (es.countP Event.ofTransport) := by
  rw [State.nextTx_eq, State.recorded_txAnswer, Nat.add_zero]

theorem State.nextPin_recorded (s : State) (es : List Event) :
    (s.recorded es).nextPin = s.pinAnswer (es.countP Event.ofPin) := by
  rw [State.nextPin_eq, State.recorded_pinAnswer, Nat.add_zero]

section

variable (s : State) (o : HostOp) (rest : List Request) {es : List Event} {e : Event} (f : OpFault)

theorem State.ends_recorded_finish (es : List Event) (r : OpResult) : s.ends (((s.begin o rest).recorded es).finish r) es r rest :=
  ⟨rfl, rfl, rfl, rfl⟩

theorem State.ends_interrupted (es : List Event) (e : Event) :
    s.ends (((s.begin o rest).recorded es).interrupted e f) (es ++ [e]) (.err f) rest :=
  ⟨rfl, rfl, List.append_assoc .., rfl⟩

theorem State.txOnly_recorded_finish (r : OpResult) (hpin : es.countP Event.ofPin = 0) :
    s.txOnly (((s.begin o rest).recorded es).finish r) (es.countP Event.ofTransport) := by
  simp [State.txOnly, State.recorded, hpin]

theorem State.txOnly_interrupted (hpin : es.countP Event.ofPin = 0) (ht : e.ofTransport = true)
    (hp : e.ofPin = false) :
    s.txOnly (((s.begin o rest).recorded es).interrupted e f) (es.countP Event.ofTransport + 1) := by
  simp [State.txOnly, State.interrupted, State.recorded, hpin, ht, hp, Nat.add_assoc]

theorem State.pinOnly_interrupted (htx : es.countP Event.ofTransport = 0) (ht : e.ofTransport = false)
    (hp : e.ofPin = true) :
    s.pinOnly (((s.begin o rest).recorded es).interrupted e f) (es.countP Event.ofPin + 1) := by
  simp [State.pinOnly, State.interrupted, State.recorded, htx, ht, hp, Nat.add_assoc]

end

/-! ### `reset` (R101) -/

theorem resetLine_append (xs ys : List Event) : resetLine (xs ++ ys) = ys.foldl ResetLine.after (resetLine xs) := by
  simp [resetLine]

theorem resetCalls_performs {s : State} {rest : List Request} (h : s.invokes .reset rest) :
    s.performs .reset rest resetCalls :=
  ⟨h, rfl, nofun, fun _ => rfl⟩

/-- `reset` makes no transport call (R101). -/
theorem resetEvents_not_ofTransport : ∀ e ∈ resetEvents, ¬ e.ofTransport = true := by decide

/-- `reset` whose pin call at position `n` is the first to fail ends there with the pin's own value (R101, R143). -/
theorem reset_stopsAt {s : State} {rest : List Request} {n p : Nat} {level : Level} {e : PinFault}
    (h : s.invokes .reset rest) (hn : resetCalls[n]? = some (.pin level))
    (hp : (resetEvents.take n).countP Event.ofPin = p) (hok : ∀ k < p, s.pinAnswer k = .ok)
    (hfault : s.pinAnswer p = .fault e) :
    ∃ t, steps (n + 1) s = .next t ∧ s.pinOnly t (p + 1) ∧ t.stepIdx = n ∧
      s.ends t (resetEvents.take n ++ [.pin level (.fault e)]) (.err (.pin e)) rest := by
  subst hp
  have hevents : (resetCalls.take n).map s.acceptedEvent = resetEvents.take n := List.map_take ..
  have htx : (resetEvents.take n).countP Event.ofTransport = 0 :=
    List.countP_eq_zero.2 fun d hd => resetEvents_not_ofTransport d (List.mem_of_mem_take hd)
  have hlen : (resetEvents.take n).length = n := by
    obtain ⟨hlt, -⟩ := List.getElem?_eq_some_iff.1 hn
    exact List.length_take_of_le hlt.le
  have hevent : (s.recorded (resetEvents.take n)).callEvent (.pin level) = .pin level (.fault e) := by
    rw [State.callEvent, State.nextPin_recorded, hfault]
  have hsteps := (resetCalls_performs h).steps_failed (e := .pin level (.fault e)) (f := .pin e) hn
    (by rw [hevents]; exact ⟨by simp [htx], hok⟩) (by rw [hevents, hevent]) rfl
  rw [hevents] at hsteps
  exact ⟨_, hsteps, s.pinOnly_interrupted _ _ _ htx rfl rfl, (Nat.zero_add _).trans hlen, s.ends_interrupted _ _ _ _ _⟩

/-- What is known of the reset line after an operation, from its events. -/
theorem State.ends.resetLine {s t : State} {es : List Event} {r : OpResult} {rest : List Request}
    (h : s.ends t es r rest) : resetLine t.run.trace = es.foldl ResetLine.after (resetLine s.run.trace) := by
  obtain ⟨-, -, htrace, -⟩ := h
  rw [htrace, resetLine_append]

/-- Settles O19: `reset` calls the pin at the positions 0, 2 and 4, and its first event drives the line high, whatever was
known of it before. -/
theorem resetPulsesThePin : Obligations.ResetPulsesThePin := by
  intro s rest h
  refine ⟨fun hok => ?accepted, fun e h₀ => ?position0, fun e h₀ h₁ => ?position2, fun e h₀ h₁ h₂ => ?position4⟩
  case accepted =>
    have hgrants : s.grants resetEvents := ⟨nofun, hok⟩
    have hends := s.ends_recorded_finish .reset rest resetEvents .ok
    exact ⟨_, (resetCalls_performs h).steps_accepted nofun hgrants, ⟨rfl, rfl, rfl, rfl, rfl, rfl⟩, rfl,
      hends.resetLine, hends⟩
  case position0 => exact reset_stopsAt (n := 0) h rfl rfl nofun h₀
  case position2 =>
    have hok : ∀ k < 1, s.pinAnswer k = .ok := by simpa using h₀
    obtain ⟨t, hsteps, hpin, hidx, hends⟩ := reset_stopsAt (n := 2) h rfl rfl hok h₁
    exact ⟨t, hsteps, hpin, hidx, hends.resetLine, hends⟩
  case position4 =>
    have hok : ∀ k < 2, s.pinAnswer k = .ok := fun
      | 0, _ => h₀
      | 1, _ => h₁
    obtain ⟨t, hsteps, hpin, hidx, hends⟩ := reset_stopsAt (n := 4) h rfl rfl hok h₂
    exact ⟨t, hsteps, hpin, hidx, hends.resetLine, hends⟩

/-! ### Operations that call the transport and not the pin (R102 to R105, R123) -/

section

variable {s : State} {o : HostOp} {rest : List Request} {calls : List Call} {es : List Event}

/-- Where the transport accepts every call, the operation makes exactly the events of its calls and returns `Ok`. -/
theorem State.performs.endsOk (h : s.performs o rest calls) (hes : calls.map s.acceptedEvent = es) (hne : calls ≠ [])
    (hpin : es.countP Event.ofPin = 0) (hok : ∀ k < es.countP Event.ofTransport, s.txAnswer k = .ok) :
    ∃ t, steps calls.length s = .next t ∧ s.ends t es .ok rest ∧ s.txOnly t (es.countP Event.ofTransport) ∧
      t.stepIdx = es.length := by
  subst hes
  have hgrants : s.grants (calls.map s.acceptedEvent) := ⟨hok, by simp [hpin]⟩
  exact ⟨_, h.steps_accepted hne hgrants, s.ends_recorded_finish _ _ _ _, s.txOnly_recorded_finish _ _ _ hpin,
    Nat.zero_add _⟩

/-- A sequence that fails at a position leaves the events before it and the failing one (R145). -/
theorem failedAt_eq {n : Nat} {e : Event} (hn : es[n]? = some e) (v : TransportFault) :
    failedAt es n v = es.take n ++ [e.failing v] := by
  obtain ⟨hlt, rfl⟩ := List.getElem?_eq_some_iff.1 hn
  have hlen : n < (es.take (n + 1)).length := by simp [hlt]
  rw [failedAt, List.modify_eq_take_cons_drop hlen]
  simp [List.take_take]

/-- The event of a transport call that fails with `v`. -/
theorem State.callEvent_failing {c : Call} {v : TransportFault} (ht : (s.acceptedEvent c).ofTransport = true)
    (hv : s.nextTx = .fault v) : s.callEvent c = (s.acceptedEvent c).failing v := by
  cases c with
  | send | data | chunk => simp [State.callEvent, State.acceptedEvent, Event.failing, hv]
  | pin | delay => cases ht

theorem Event.failing_of_transport {e : Event} (v : TransportFault) (ht : e.ofTransport = true) :
    (e.failing v).raised = some (.transport v) ∧ (e.failing v).ofTransport = true ∧ (e.failing v).ofPin = false := by
  cases e with
  | cmd | data => exact ⟨rfl, rfl, rfl⟩
  | pin | wait => cases ht

/-- Where the transport accepts `j` calls and then fails with `v`, the operation ends with `v` at the position `n` of that
call, with the events before it and the failing one. -/
theorem State.performs.endsErr {n j : Nat} {e : Event} {v : TransportFault} (h : s.performs o rest calls)
    (hes : calls.map s.acceptedEvent = es) (hpin : es.countP Event.ofPin = 0) (hn : es[n]? = some e)
    (ht : e.ofTransport = true) (hj : (es.take n).countP Event.ofTransport = j) (hok : ∀ k < j, s.txAnswer k = .ok)
    (hv : s.txAnswer j = .fault v) :
    ∃ t, steps (n + 1) s = .next t ∧ s.ends t (failedAt es n v) (.err (.transport v)) rest ∧ s.txOnly t (j + 1) ∧
      t.stepIdx = n := by
  subst hes hj
  have hlen : (List.take n (calls.map s.acceptedEvent)).length = n := by
    obtain ⟨hlt, -⟩ := List.getElem?_eq_some_iff.1 hn
    exact List.length_take_of_le hlt.le
  have hpinTake : ((calls.map s.acceptedEvent).take n).countP Event.ofPin = 0 :=
    Nat.le_zero.1 (hpin ▸ (List.take_sublist n _).countP_le)
  obtain ⟨c, hc, rfl⟩ := Option.map_eq_some_iff.1 (List.getElem?_map ▸ hn)
  obtain ⟨hraised, hfailsTx, hfailsPin⟩ := Event.failing_of_transport v ht
  rw [failedAt_eq hn]
  rw [← List.map_take] at hlen hpinTake hok hv ⊢
  have hevent : (s.recorded ((calls.take n).map s.acceptedEvent)).callEvent c = (s.acceptedEvent c).failing v := by
    rw [State.callEvent_failing _ ((s.nextTx_recorded _).trans hv)] <;> rw [State.recorded_acceptedEvent]
    exact ht
  have hsteps := h.steps_failed hc ⟨hok, by rw [hpinTake]; exact nofun⟩ hevent hraised
  exact ⟨_, hsteps, s.ends_interrupted _ _ _ _ _, s.txOnly_interrupted _ _ _ hpinTake hfailsTx hfailsPin,
    (Nat.zero_add _).trans hlen⟩

end

/-! ### `init` (R102) -/

theorem initCalls_performs {s : State} {rest : List Request} (h : s.invokes .init rest) :
    s.performs .init rest initCalls :=
  ⟨h, rfl, nofun, fun _ => rfl⟩

theorem initCalls_acceptedEvent (s : State) : initCalls.map s.acceptedEvent = initEvents := rfl

/-- Settles O21: the bytes of the 24 calls are those of R102's table. -/
theorem initEmitsTheTwentyFourEvents : Obligations.InitEmitsTheTwentyFourEvents := fun s _ h hok =>
  (initCalls_performs h).endsOk (initCalls_acceptedEvent s) nofun rfl hok

/-- The `j`-th of the listed positions of `init` is a send, with `j` sends before it (R141). -/
theorem initSendSteps_spec : ∀ p ∈ initSendSteps.zipIdx,
    (initEvents.take p.1).countP Event.ofTransport = p.2 ∧ (initEvents[p.1]?).any Event.ofTransport = true := by
  decide

/-- Settles O22: the `j`-th send stands at the listed position, where the transport is asked for the `j`-th time. -/
theorem initStopsAtTheFirstFailingSend : Obligations.InitStopsAtTheFirstFailingSend := by
  intro s rest j n v h hn hok hv
  obtain ⟨hcount, hsend⟩ := initSendSteps_spec (n, j) (List.mk_mem_zipIdx_iff_getElem?.2 hn)
  obtain ⟨e, he, ht⟩ := (Option.any_eq_true _ _).1 hsend
  exact (initCalls_performs h).endsErr (initCalls_acceptedEvent s) rfl he ht hcount hok hv

/-! ### `draw` and `set_display_on` (R103, R104) -/

theorem steps_one (s : State) : steps 1 s = step s := by
  cases h : step s <;> simp [steps, h]

/-- Settles O25: `draw` is an operation whose only call carries the caller's bytes. -/
theorem drawForwardsTheSlice : Obligations.DrawForwardsTheSlice := by
  intro s buffer rest h
  have hperforms : s.performs (.draw buffer) rest (drawCalls buffer) := ⟨h, rfl, nofun, fun _ => rfl⟩
  rw [← steps_one]
  refine ⟨fun hok => ?_, fun v hv => hperforms.endsErr (n := 0) rfl rfl rfl rfl rfl nofun hv⟩
  exact hperforms.endsOk rfl nofun rfl fun k hk => Nat.lt_one_iff.1 hk ▸ hok

/-- Settles O26: `set_display_on` is an operation whose only call sends DisplayOn. -/
theorem setDisplayOnSendsOneByte : Obligations.SetDisplayOnSendsOneByte := by
  intro s on rest h
  have hperforms : s.performs (.setDisplayOn on) rest (setDisplayOnCalls on) := ⟨h, rfl, nofun, fun _ => rfl⟩
  have hbyte : encode (.displayOn on) = [if on then 0x3D else 0x3C] := by cases on <;> rfl
  have hes : (setDisplayOnCalls on).map s.acceptedEvent = [.cmd [if on then 0x3D else 0x3C] .ok] := by
    simp only [setDisplayOnCalls, List.map, State.acceptedEvent, hbyte]
  rw [← steps_one]
  refine ⟨fun hok => ?_, fun v hv => hperforms.endsErr (n := 0) hes rfl rfl rfl rfl nofun hv⟩
  exact hperforms.endsOk hes nofun rfl fun k hk => Nat.lt_one_iff.1 hk ▸ hok

/-! ### `set_draw_area` (R105) -/

/-- Every call of `set_draw_area` is a send. -/
theorem drawAreaEvents_ofTransport (sx sy ex : Byte) : ∀ e ∈ drawAreaEvents sx sy ex, e.ofTransport = true := by
  simp [drawAreaEvents, Event.ofTransport]

/-- Settles O27: the operand `ey` is in no call; every call is a send, so the `j`-th send is the call at position `j`. -/
theorem setDrawAreaSendsFourCommands : Obligations.SetDrawAreaSendsFourCommands := by
  intro s sx sy ex ey rest h
  have hperforms : s.performs (.setDrawArea sx sy ex ey) rest (setDrawAreaCalls sx sy ex ey) :=
    ⟨h, rfl, nofun, fun _ => rfl⟩
  have hes : (setDrawAreaCalls sx sy ex ey).map s.acceptedEvent = drawAreaEvents sx sy ex := rfl
  refine ⟨fun hok => hperforms.endsOk hes nofun rfl hok, fun j v hj hok hv => ?_⟩
  have hlt : j < (drawAreaEvents sx sy ex).length := hj
  have hsends := drawAreaEvents_ofTransport sx sy ex
  have hcount : ((drawAreaEvents sx sy ex).take j).countP Event.ofTransport = j :=
    (List.countP_eq_length.2 fun e he => hsends e (List.mem_of_mem_take he)).trans (List.length_take_of_le hlt.le)
  exact hperforms.endsErr hes rfl (List.getElem?_eq_getElem hlt) (hsends _ (List.getElem_mem hlt)) hcount hok hv

/-! ### Every operation ends (R107, R159) -/

/-- The pixel events an operation still has to apply. -/
def HostOp.eventCount : HostOp → Nat
  | .drawPixels events => events.length
  | _ => 0

/-- A bound on the steps an operation takes from position `k` on: a step for each call or pixel event left, at least one. -/
def HostOp.stepsLeft (c : Config) (k : Nat) (o : HostOp) : Nat := max (max 1 (o.callCount c - k)) o.eventCount

/-- An operation that makes calls applies no pixel events. -/
theorem HostOp.eventCount_of_callAt {c : Config} {o : HostOp} {k : Nat} (h : (o.callAt c k).isSome) :
    o.eventCount = 0 := by
  cases o with
  | drawPixels => cases h
  | encode | send | reset | init | draw | setDisplayOn | setDrawArea | clear | setPixel | flush => rfl

/-- A step of an operation keeps the requests; it ends the operation with one result, or leaves fewer steps to take. -/
theorem runOp_endsOrAdvances {o : HostOp} {u t : State} (hchunk : 1 ≤ u.cfg.chunk) (hr : u.run.running = some o)
    (h : runOp o u = .next t) :
    t.run.requests = u.run.requests ∧
    ((t.run.running = none ∧ ∃ r, t.run.results = u.run.results ++ [r]) ∨
      ∃ p, t.run.running = some p ∧ t.run.results = u.run.results ∧
        p.stepsLeft u.cfg t.stepIdx < o.stepsLeft u.cfg u.stepIdx) := by
  rcases runOp_next h with ⟨-, -, r, rfl, -⟩ | ⟨c, v, -, hp, hv⟩ | ⟨-, m, -, -, rfl | ⟨e, es, rfl, hes, rfl⟩⟩
  · exact ⟨rfl, .inl ⟨rfl, r, rfl⟩⟩
  · obtain ⟨-, hcfg, hrequests⟩ := perform_frame hp
    obtain ⟨-, -, ⟨hrunning, hidx, hresults⟩ | ⟨f, hended, -, hresults⟩⟩ := perform_recordsCall hp
    · rcases hv with ⟨rfl, hmore⟩ | ⟨rfl, -, -⟩
      · have hnext := hmore.resolve_left (by simp [hrunning, hr])
        rw [hcfg] at hnext
        have hlt := HostOp.lt_callCount hchunk hnext
        refine ⟨hrequests, .inr ⟨o, hrunning.trans hr, hresults, ?_⟩⟩
        simp only [HostOp.stepsLeft, HostOp.eventCount_of_callAt hnext]
        omega
      · exact ⟨hrequests, .inl ⟨rfl, .ok, by simp [hresults]⟩⟩
    · rcases hv with ⟨rfl, -⟩ | ⟨-, hsome, -⟩
      · exact ⟨hrequests, .inl ⟨hended, _, hresults⟩⟩
      · simp [hended] at hsome
  · exact ⟨rfl, .inl ⟨rfl, .ok, rfl⟩⟩
  · have hpos := List.length_pos_of_ne_nil hes
    refine ⟨rfl, .inr ⟨.drawPixels es, rfl, rfl, ?_⟩⟩
    simp only [HostOp.stepsLeft, HostOp.callCount, HostOp.eventCount, List.length_cons]
    omega

/-- A running operation ends with one result within the steps it has left. -/
theorem steps_running_ends {o : HostOp} {u : State} {m : Nat} (hc : u.cfg.wf) (hr : u.run.running = some o)
    (hm : o.stepsLeft u.cfg u.stepIdx ≤ m) :
    ∃ n t r, 1 ≤ n ∧ n ≤ m ∧ steps n u = .next t ∧ t.run.running = none ∧ t.run.requests = u.run.requests ∧
      t.run.results = u.run.results ++ [r] := by
  induction m generalizing u o with
  | zero =>
    simp only [HostOp.stepsLeft] at hm
    omega
  | succ m ih =>
    have ⟨_, _, _, _, _, hchunk⟩ := hc
    obtain ⟨t, ht⟩ := runOp_isNext hc o
    have hstep : step u = .next t := (step_running hr).trans ht
    obtain ⟨hrequests, ⟨hended, r, hresults⟩ | ⟨p, hgoes, hresults, hless⟩⟩ := runOp_endsOrAdvances hchunk hr ht
    · exact ⟨1, t, r, le_rfl, by omega, steps_succ 0 hstep, hended, hrequests, hresults⟩
    · have hcfg := runOp_cfg ht
      obtain ⟨n, w, r, -, hle, hsteps, hended, hreq, hres⟩ := ih (hcfg ▸ hc) hgoes (by rw [hcfg]; omega)
      exact ⟨n + 1, w, r, by omega, by omega, (steps_succ n hstep).trans hsteps, hended, hreq.trans hrequests,
        by rw [hres, hresults]⟩

/-- Settles O53: the operation begins at position 0, where the steps it has left are those the statement allows. -/
theorem everyOperationEnds : Obligations.EveryOperationEnds := by
  intro s o rest ⟨hc, _⟩ h ha
  obtain ⟨n, t, r, hpos, hle, hsteps, hend⟩ :=
    steps_running_ends (u := s.begin o rest) hc rfl (le_refl (o.stepsLeft s.cfg 0))
  obtain ⟨k, rfl⟩ := Nat.exists_eq_add_of_le' hpos
  exact ⟨k + 1, t, r, hpos, hle, (steps_invokes k h ha).trans hsteps, hend⟩

end Sys2Proof.Machine

/-! SUPPORT. The Buffered Drawing Mode's operations: two canonical buffers that read alike are the same, what `clear` and
`draw_pixels` leave in the buffer, that `flush` sends all of it, and that the mode without a buffer refuses all four. -/

namespace Sys2Proof.Machine

/-! ### A canonical buffer is determined by what it reads (R21) -/

/-- In the canonical form an index is listed once, so its cell is what is read there. -/
theorem Memory.mem_iff_read {m : Memory} (h : Memory.wf m) {i : Nat} {v : Byte} :
    (i, v) ∈ m ↔ Memory.read m i = some v := by
  induction m with
  | nil => simp [Memory.read]
  | cons d rest ih =>
    obtain ⟨k, w⟩ := d
    obtain ⟨hlater, hrest⟩ := List.pairwise_cons.1 h
    by_cases hk : i = k
    · subst hk
      have hnot : (i, v) ∉ rest := fun hmem => Nat.lt_irrefl i (hlater _ hmem)
      simp [Memory.read, hnot, eq_comm]
    · simp [Memory.read, hk, ih hrest]

/-- Two canonical buffers that read alike at every index are the same. -/
theorem Memory.eq_of_read {m m' : Memory} (h : Memory.wf m) (h' : Memory.wf m')
    (hread : ∀ i, Memory.read m i = Memory.read m' i) : m = m' := by
  have : Std.Irrefl fun c d : Host.Cell => c.1 < d.1 := ⟨fun c => Nat.lt_irrefl c.1⟩
  have : Std.Antisymm fun c d : Host.Cell => c.1 < d.1 := ⟨fun c d h₁ h₂ => absurd h₁ (Nat.lt_asymm h₂)⟩
  exact List.Pairwise.eq_of_mem_iff h h' fun ⟨i, v⟩ => by
    rw [Memory.mem_iff_read h, Memory.mem_iff_read h', hread]

/-- An index no cell of a bounded buffer can have is unwritten. -/
theorem Memory.read_eq_none {m : Memory} {n i : Nat} (h : Memory.below n m) (hi : n ≤ i) : Memory.read m i = none := by
  induction m with
  | nil => rfl
  | cons d rest ih =>
    obtain ⟨k, w⟩ := d
    obtain ⟨hk, hrest⟩ := List.forall_mem_cons.1 h
    have hne : i ≠ k := by simp only at hk; omega
    simp [Memory.read, hne, ih hrest]

/-- After writing consecutive bytes each index among them reads its byte, every other one as before. -/
theorem Memory.read_writeList (m : Memory) (a : Nat) (vs : List Byte) (i : Nat) :
    Memory.read (Memory.writeList m a vs) i =
      if a ≤ i ∧ i < a + vs.length then vs[i - a]? else Memory.read m i := by
  induction vs generalizing m a with
  | nil => simp only [Memory.writeList, List.length_nil]; rw [if_neg (by omega)]
  | cons v vs ih =>
    rw [Memory.writeList, ih, List.length_cons]
    rcases Nat.lt_trichotomy i a with hlt | rfl | hgt
    · rw [if_neg (by omega), if_neg (by omega), Memory.read_write_other _ _ (by omega)]
    · rw [if_neg (by omega), if_pos (by omega), Memory.read_write_same, Nat.sub_self, List.getElem?_cons_zero]
    · have hidx : i - a = i - (a + 1) + 1 := by omega
      by_cases hin : i < a + 1 + vs.length
      · rw [if_pos (by omega), if_pos (by omega), hidx, List.getElem?_cons_succ]
      · rw [if_neg (by omega), if_neg (by omega), Memory.read_write_other _ _ (by omega)]

/-- Writing one value at every index of a bounded buffer leaves the filled buffer, whatever was there. -/
theorem Memory.writeList_replicate {m : Memory} {n : Nat} (v : Byte) (h : Memory.wf m) (hbelow : Memory.below n m) :
    Memory.writeList m 0 (List.replicate n v) = Memory.fill n v := by
  refine Memory.eq_of_read (Memory.writeList_wf 0 _ h) (Memory.fill_wf n v) fun i => ?_
  rw [Memory.read_writeList, Memory.read_fill, List.length_replicate]
  by_cases hi : i < n
  · rw [if_pos (by omega), if_pos hi, List.getElem?_replicate, if_pos (by omega)]
  · rw [if_neg (by omega), if_neg hi, Memory.read_eq_none hbelow (by omega)]

/-! ### `clear` (R121) -/

/-- Every operation exists in Buffered mode (R128). -/
theorem HostOp.availableIn_of_buffered {m : Mode} (o : HostOp) (hmode : m = .buffered) : o.availableIn m = true := by
  subst hmode
  cases o <;> rfl

/-- One step of a `clear` the host invokes leaves the buffer filled with 0. -/
theorem step_clear {s : State} {rest : List Request} (hmode : s.cfg.mode = .buffered) (h : s.invokes .clear rest) :
    step s = .next (s.endedWith (Memory.fill s.cfg.bytes 0) .ok rest) := by
  rw [step_invokes h (HostOp.availableIn_of_buffered _ hmode)]
  rfl

/-- Settles O28: the filled buffer lists every index below N. -/
theorem clearZeroesTheBuffer : Obligations.ClearZeroesTheBuffer := by
  intro s rest hmode h
  refine ⟨_, step_clear hmode h, fun i hi => ?_⟩
  simp [State.fbRead, State.fbByte, State.endedWith, Memory.read_fill, hi]

/-- Settles O29: the byte-by-byte writes and the filled buffer read alike and are both canonical. -/
theorem clearIsMemWriteOfZeros : Obligations.ClearIsMemWriteOfZeros := by
  intro s rest ⟨_, hwf, hbelow, _⟩ hmode h
  refine ⟨_, ?_, step_clear hmode h⟩
  have hfb : Memory.writeList s.fb 0 (List.replicate s.cfg.bytes 0) = Memory.fill s.cfg.bytes 0 :=
    Memory.writeList_replicate 0 hwf hbelow
  rw [State.memWrite, if_pos (by simp [State.endedWith])]
  exact congrArg (fun m => some (s.endedWith m .ok rest)) hfb

/-! ### `set_pixel` (R122) -/

/-- Settles O31: the step writes the pixel's bit, and the buffer reads the same at every other. -/
theorem setPixelChangesOneBit : Obligations.SetPixelChangesOneBit := by
  intro s x y value rest hc hmode h hx hy
  refine ⟨_, step_setPixel_inside hc hmode h hx hy, ?_, fun i bit hbit hne => ?_⟩
  · exact (s.endedWith_plotted_bufferBit x y _ value .ok rest (pixelBit_lt y)).trans (if_pos ⟨rfl, rfl⟩)
  · exact (s.endedWith_plotted_bufferBit x y i value .ok rest hbit).trans (if_neg hne)

/-! ### `draw_pixels` (R127) -/

/-- The buffer of `s` after one pixel event: the named pixel is written if the box holds it. -/
def State.eventFb (s : State) (e : PixelEvent) : Memory :=
  if insideBox s.cfg e.px e.py then s.plotted e.px.toNat e.py.toNat e.on else s.fb

/-- The position of an event inside the box is a pixel of the display. -/
theorem insideBox_iff {c : Config} {px py : Int} :
    insideBox c px py = true ↔ ∃ x y : Nat, px = x ∧ py = y ∧ x < c.width ∧ y < c.height := by
  simp only [insideBox, Bool.and_eq_true, decide_eq_true_eq]
  constructor
  · rintro ⟨⟨⟨hx, hxw⟩, hy⟩, hyh⟩
    exact ⟨px.toNat, py.toNat, by omega, by omega, by omega, by omega⟩
  · rintro ⟨x, y, rfl, rfl, hx, hy⟩
    omega

/-- One pixel event writes the buffer and nothing else. -/
theorem applyEvent_eq {s : State} (hc : s.cfg.wf) (e : PixelEvent) :
    applyEvent e s = .next (s.withFb (s.eventFb e)) := by
  unfold applyEvent State.eventFb
  split
  · next hbox =>
    obtain ⟨x, y, hpx, hpy, hx, hy⟩ := insideBox_iff.1 hbox
    obtain ⟨-, -, -, hbands, -⟩ := hc
    rw [hpx, hpy, Int.toNat_natCast, Int.toNat_natCast]
    exact plot_inside e.on (by simp [pixelInside, hx, hy]) (pixelIndex_lt_bytes hbands hx hy)
  · rfl

/-- Setting a pixel shows at that pixel of the display and at no other. -/
theorem State.withFb_plotted_pixelOn (s : State) {x y a b : Nat} (value : Bool) (hx : x < s.cfg.width)
    (ha : a < s.cfg.width) :
    (s.withFb (s.plotted a b value)).pixelOn x y = if a = x ∧ b = y then value else s.pixelOn x y := by
  have hbit : (s.withFb (s.plotted a b value)).pixelOn x y =
      if pixelIndex s.cfg x y = pixelIndex s.cfg a b ∧ pixelBit y = pixelBit b then value else s.pixelOn x y :=
    s.endedWith_plotted_bufferBit a b (pixelIndex s.cfg x y) value .ok [] (pixelBit_lt y)
  have hsame : (pixelIndex s.cfg x y = pixelIndex s.cfg a b ∧ pixelBit y = pixelBit b) ↔ a = x ∧ b = y := by
    constructor
    · rintro ⟨hindex, hrow⟩
      obtain ⟨rfl, rfl⟩ := pixel_unique hx ha hindex hrow
      exact ⟨rfl, rfl⟩
    · rintro ⟨rfl, rfl⟩
      exact ⟨rfl, rfl⟩
  rw [hbit, if_congr hsame rfl rfl]

/-- After a pixel event a pixel of the display is as the event says if the event names it, else as before. -/
theorem State.withFb_eventFb_pixelOn (s : State) (e : PixelEvent) {x y : Nat} (hx : x < s.cfg.width)
    (hy : y < s.cfg.height) :
    (s.withFb (s.eventFb e)).pixelOn x y = if e.px = x ∧ e.py = y then e.on else s.pixelOn x y := by
  unfold State.eventFb
  split
  · next hbox =>
    obtain ⟨a, b, hpx, hpy, ha, -⟩ := insideBox_iff.1 hbox
    rw [hpx, hpy, Int.toNat_natCast, Int.toNat_natCast, s.withFb_plotted_pixelOn e.on hx ha]
    simp only [Nat.cast_inj]
  · next hout =>
    have hother : ¬ (e.px = x ∧ e.py = y) := fun ⟨hpx, hpy⟩ => hout (insideBox_iff.2 ⟨x, y, hpx, hpy, hx, hy⟩)
    exact (if_neg hother).symm

/-- The last of the later events decides; the first one only where none of them names the pixel. -/
theorem lastNaming_cons_getD (e : PixelEvent) (es : List PixelEvent) (x y : Nat) (before : Bool) :
    (lastNaming x y (e :: es)).getD before =
      (lastNaming x y es).getD (if e.px = x ∧ e.py = y then e.on else before) := by
  cases hlast : lastNaming x y es with
  | some v => simp [lastNaming, hlast]
  | none =>
    simp only [lastNaming, hlast]
    split <;> rfl

/-- A running `draw_pixels` ends with `Ok`, one step for each event and at least one, having written the buffer alone; each
pixel of the display is then as the last event naming it says. -/
theorem steps_drawPixels {u : State} {events : List PixelEvent} (hc : u.cfg.wf)
    (hr : u.run.running = some (.drawPixels events)) :
    ∃ m, steps (max 1 events.length) u = .next ((u.withFb m).finish .ok) ∧
      ∀ x y, x < u.cfg.width → y < u.cfg.height →
        (u.withFb m).pixelOn x y = (lastNaming x y events).getD (u.pixelOn x y) := by
  induction events generalizing u with
  | nil => exact ⟨u.fb, steps_succ 0 (step_running hr), fun _ _ _ _ => rfl⟩
  | cons e es ih =>
    have happly := applyEvent_eq hc e
    cases es with
    | nil =>
      have hstep : step u = .next ((u.withFb (u.eventFb e)).finish .ok) := by
        rw [step_running hr, runOp, opDrawPixels, happly, mapNext]
      refine ⟨_, steps_succ 0 hstep, fun x y hx hy => ?_⟩
      rw [lastNaming_cons_getD, ← u.withFb_eventFb_pixelOn e hx hy]
      rfl
    | cons d ds =>
      let t := (u.withFb (u.eventFb e)).withRunning (.drawPixels (d :: ds))
      have hstep : step u = .next t := by
        rw [step_running hr, runOp, opDrawPixels, happly, mapNext]
        exact nofun
      obtain ⟨m, hsteps, hpixels⟩ := ih (u := t) hc rfl
      have hlen : max 1 (e :: d :: ds).length = max 1 (d :: ds).length + 1 := by simp
      refine ⟨m, hlen ▸ (steps_succ _ hstep).trans hsteps, fun x y hx hy => ?_⟩
      rw [lastNaming_cons_getD, ← u.withFb_eventFb_pixelOn e hx hy]
      exact hpixels x y hx hy

/-- Settles O37: beginning the operation keeps the buffer, and its steps are those of the events. -/
theorem drawPixelsLastEventWins : Obligations.DrawPixelsLastEventWins := by
  intro s events rest hc hmode h
  obtain ⟨m, hsteps, hpixels⟩ := steps_drawPixels (u := s.begin (.drawPixels events) rest) hc rfl
  obtain ⟨n, hn⟩ : ∃ n, max 1 events.length = n + 1 := Nat.exists_eq_add_of_le' (Nat.le_max_left 1 _)
  have hbegins := steps_invokes n h (HostOp.availableIn_of_buffered _ hmode)
  rw [← hn] at hbegins
  exact ⟨m, hbegins.trans hsteps, hpixels⟩

/-! ### `flush` (R123) -/

/-- The calls of `flush`: a chunk for each position below the count (R46). -/
def flushChunks (c : Config) : List Call :=
  (List.range (HostOp.flush.callCount c)).map fun k => .chunk (chunkStart c k) (chunkLength c k)

theorem length_flushChunks (c : Config) : (flushChunks c).length = HostOp.flush.callCount c := by simp [flushChunks]

/-- `flush` calls its chunks in order and then no more. -/
theorem flush_callAt {c : Config} (hchunk : 1 ≤ c.chunk) (k : Nat) : HostOp.flush.callAt c k = (flushChunks c)[k]? := by
  by_cases hk : k < HostOp.flush.callCount c
  · have hfirst : chunkStart c k < c.bytes := (lt_flush_callCount_iff hchunk).1 hk
    simp [HostOp.callAt, flushCalls, flushChunks, hfirst, hk]
  · rw [(HostOp.callAt_eq_none_iff hchunk).2 (Nat.le_of_not_lt hk), List.getElem?_eq_none]
    exact (length_flushChunks c).trans_le (Nat.le_of_not_lt hk)

theorem flushChunks_performs {s : State} {rest : List Request} (hchunk : 1 ≤ s.cfg.chunk)
    (hmode : s.cfg.mode = .buffered) (h : s.invokes .flush rest) : s.performs .flush rest (flushChunks s.cfg) :=
  ⟨h, HostOp.availableIn_of_buffered _ hmode, fun _ => Nat.ne_of_gt hchunk, flush_callAt hchunk⟩

theorem flushChunks_acceptedEvent (s : State) : (flushChunks s.cfg).map s.acceptedEvent = flushEvents s := by
  rw [flushChunks, List.map_map]
  rfl

/-- `flush` makes data calls only (R124). -/
theorem flushEvents_ofTransport (s : State) : ∀ e ∈ flushEvents s, e.ofTransport = true ∧ e.ofPin = false := by
  simp [flushEvents, Event.ofTransport, Event.ofPin]

theorem length_flushEvents (s : State) : (flushEvents s).length = HostOp.flush.callCount s.cfg := by
  simp [flushEvents]

theorem countP_ofPin_flushEvents (s : State) : (flushEvents s).countP Event.ofPin = 0 :=
  List.countP_eq_zero.2 fun e he => by simp [(flushEvents_ofTransport s e he).2]

/-- Each of the first `j` events takes one answer of the transport. -/
theorem countP_ofTransport_take_flushEvents {s : State} {j : Nat} (hj : j ≤ HostOp.flush.callCount s.cfg) :
    ((flushEvents s).take j).countP Event.ofTransport = j := by
  rw [List.countP_eq_length.2 fun e he => (flushEvents_ofTransport s e (List.mem_of_mem_take he)).1]
  exact List.length_take_of_le ((length_flushEvents s).symm ▸ hj)

theorem countP_ofTransport_flushEvents (s : State) :
    (flushEvents s).countP Event.ofTransport = HostOp.flush.callCount s.cfg := by
  simpa [← length_flushEvents] using countP_ofTransport_take_flushEvents (s := s) le_rfl

/-- The next piece of at most `w` of `total` bytes, after `n` such pieces, carries on where they end. -/
theorem range_append_chunk {α : Type} (f : Nat → α) (w total n : Nat) :
    (List.range (min total (n * w))).map f ++ (List.range (min w (total - n * w))).map (fun j => f (n * w + j)) =
      (List.range (min total ((n + 1) * w))).map f := by
  rw [Nat.succ_mul]
  by_cases hle : n * w ≤ total
  · have hend : min total (n * w + w) = n * w + min w (total - n * w) := by omega
    rw [hend, Nat.min_eq_right hle, List.range_add, List.map_append, List.map_map]
    rfl
  · have hnone : min w (total - n * w) = 0 := by omega
    have hend : min total (n * w + w) = min total (n * w) := by omega
    simp [hnone, hend]

/-- The first `n` chunks are the bytes up to the end of the last of them. -/
theorem dataBytes_chunks (f : Nat → Byte) (w total n : Nat) :
    dataBytes ((List.range n).map fun k =>
      .data ((List.range (min w (total - k * w))).map fun j => f (k * w + j)) .ok) =
      (List.range (min total (n * w))).map f := by
  induction n with
  | zero => simp [dataBytes]
  | succ n ih =>
    rw [List.range_succ, List.map_append, dataBytes_append, ih, ← range_append_chunk]
    simp [dataBytes]

/-- The chunks together are the bytes of the buffer in order: those after the last chunk would begin past the end. -/
theorem dataBytes_flushEvents {s : State} (hchunk : 1 ≤ s.cfg.chunk) :
    dataBytes (flushEvents s) = (List.range s.cfg.bytes).map s.fbByte := by
  have hall : s.cfg.bytes ≤ HostOp.flush.callCount s.cfg * s.cfg.chunk := by
    rw [← Nat.not_lt, ← lt_flush_callCount_iff hchunk]
    exact Nat.lt_irrefl _
  rw [flushEvents, dataBytes_chunks, Nat.min_eq_left hall]

/-- A `flush` whose calls are all accepted makes exactly the data calls of its chunks and returns `Ok`. -/
theorem flush_endsOk {s : State} {rest : List Request} (hc : s.cfg.wf) (hmode : s.cfg.mode = .buffered)
    (h : s.invokes .flush rest) (hok : ∀ k < HostOp.flush.callCount s.cfg, s.txAnswer k = .ok) :
    ∃ t, steps (HostOp.flush.callCount s.cfg) s = .next t ∧ s.ends t (flushEvents s) .ok rest ∧
      s.txOnly t (HostOp.flush.callCount s.cfg) ∧ t.stepIdx = HostOp.flush.callCount s.cfg := by
  have hpos := Config.bytes_pos hc
  obtain ⟨-, -, -, -, -, hchunk⟩ := hc
  have hfirst : 0 < HostOp.flush.callCount s.cfg := by rwa [lt_flush_callCount_iff hchunk, Nat.zero_mul]
  have hne : flushChunks s.cfg ≠ [] := List.ne_nil_of_length_pos ((length_flushChunks _).symm ▸ hfirst)
  have hends := (flushChunks_performs hchunk hmode h).endsOk (flushChunks_acceptedEvent s) hne
    (countP_ofPin_flushEvents s) (by rwa [countP_ofTransport_flushEvents])
  rwa [length_flushChunks, countP_ofTransport_flushEvents, length_flushEvents] at hends

/-- Settles O34: the sequence of `flush` is its chunks, each a call of the transport, so the `j`-th answer is the one of the
chunk at position `j`. -/
theorem flushSendsTheWholeBuffer : Obligations.FlushSendsTheWholeBuffer := by
  intro s rest hc hmode h
  have ⟨_, _, _, _, _, hchunk⟩ := hc
  refine ⟨flush_endsOk hc hmode h, dataBytes_flushEvents hchunk, fun j v hj hok hv => ?_⟩
  have hlt : j < (flushEvents s).length := (length_flushEvents s).symm ▸ hj
  exact (flushChunks_performs hchunk hmode h).endsErr (flushChunks_acceptedEvent s) (countP_ofPin_flushEvents s)
    (List.getElem?_eq_getElem hlt) (flushEvents_ofTransport s _ (List.getElem_mem hlt)).1
    (countP_ofTransport_take_flushEvents hj.le) hok hv

/-- What `flush` sends depends on the buffer and the parameters alone (R125). -/
theorem flushEvents_congr {s t : State} (hcfg : t.cfg = s.cfg) (hfb : t.fb = s.fb) : flushEvents t = flushEvents s := by
  rw [flushEvents, flushEvents, hcfg, State.fbByte_congr hfb]

/-- After `n` transport calls the `k`-th coming answer is the one that was `n + k`-th. -/
theorem State.txOnly.txAnswer {s t : State} {n : Nat} (h : s.txOnly t n) (k : Nat) :
    t.txAnswer k = s.txAnswer (n + k) := by
  obtain ⟨-, -, hanswers, hcalls, -⟩ := h
  simp [State.txAnswer, hanswers, hcalls, Nat.add_assoc]

/-- Settles O35: the first `flush` leaves the parameters and the buffer, on which alone the events of the second depend. -/
theorem flushTwiceSendsTheSame : Obligations.FlushTwiceSendsTheSame := by
  intro s rest hc hmode h hok
  obtain ⟨t, hsteps, ⟨hrunning, hrequests, htrace, hresults⟩, htx, -⟩ :=
    flush_endsOk hc hmode h fun k hk => hok k (by omega)
  have ⟨hcfg, hfb, _⟩ := htx
  have hok' : ∀ k < HostOp.flush.callCount t.cfg, t.txAnswer k = .ok := fun k hk => by
    rw [htx.txAnswer]
    rw [hcfg] at hk
    exact hok _ (by omega)
  obtain ⟨u, hsteps', ⟨-, -, htrace', hresults'⟩, ⟨-, hfb', -⟩, -⟩ :=
    flush_endsOk (hcfg ▸ hc) (hcfg ▸ hmode) ⟨hrunning, hrequests⟩ hok'
  rw [hcfg] at hsteps'
  refine ⟨u, ?_, ?_, ?_, hfb'.trans hfb⟩
  · rw [Nat.two_mul, steps_add _ _ hsteps, hsteps']
  · rw [htrace', htrace, flushEvents_congr hcfg hfb, List.append_assoc]
  · rw [hresults', hresults, List.append_assoc]
    rfl

/-! ### MODE = Basic (R128) -/

/-- The operations MODE = Basic does not have. -/
theorem HostOp.availableIn_basic_eq_false_iff {o : HostOp} :
    o.availableIn .basic = false ↔
      (o = .clear ∨ (∃ x y v, o = .setPixel x y v) ∨ o = .flush ∨ (∃ es, o = .drawPixels es)) := by
  cases o <;> simp [HostOp.availableIn]

/-- An operation the mode does not have is refused when the host invokes it. -/
theorem step_absent {s : State} {o : HostOp} {rest : List Request} (h : s.invokes o rest)
    (ha : o.availableIn s.cfg.mode = false) : step s = .refused (.absentInBasic o) := by
  obtain ⟨hrunning, hrequests⟩ := h
  simp [step, sequencerStep, fetch, hrunning, hrequests, ha]

/-- An operation of MODE = Basic has a first step, whatever the parameters: it is `encode`, or it has a call to make, and no
operation calls for bytes outside the buffer. -/
theorem step_isNext_of_basic {s : State} {o : HostOp} {rest : List Request} (h : s.invokes o rest)
    (hmode : s.cfg.mode = .basic) (ha : o.availableIn .basic = true) : ∃ t, step s = .next t := by
  have hflush : o ≠ .flush := by
    rintro rfl
    cases ha
  rw [step_invokes h (hmode ▸ ha)]
  cases o with
  | encode => exact ⟨_, rfl⟩
  | send | reset | init | draw | setDisplayOn | setDrawArea =>
    rw [runOp_eq_runSequence (absurd · hflush) rfl]
    exact runSequence_isNext fun _ => HostOp.callAt_within
  | clear | setPixel | flush | drawPixels => cases ha

/-- Settles O40: an operation is refused where the mode does not have it; where it does, there is a next state. -/
theorem basicModeRefusesBufferOperations : Obligations.BasicModeRefusesBufferOperations := by
  intro s o rest hmode h
  rw [← HostOp.availableIn_basic_eq_false_iff]
  refine ⟨fun hrefused => ?_, fun ha => step_absent h (hmode ▸ ha)⟩
  rw [← Bool.not_eq_true]
  intro ha
  obtain ⟨t, ht⟩ := step_isNext_of_basic h hmode ha
  cases hrefused.symm.trans ht

end Sys2Proof.Machine

/-! SUPPORT. Faults: a call fails with the fault its event shows, only a failing call reports a fault, and which operation makes
which kind of call where. -/

namespace Sys2Proof.Machine

/-! ### The state after a call (R23, R143 to R145) -/

section

variable (s : State) (e : Event) (f : OpFault)

@[simp] theorem State.recorded_results (es : List Event) : (s.recorded es).run.results = s.run.results := rfl

@[simp] theorem State.interrupted_cfg : (s.interrupted e f).cfg = s.cfg := rfl
@[simp] theorem State.interrupted_fb : (s.interrupted e f).fb = s.fb := rfl
@[simp] theorem State.interrupted_stepIdx : (s.interrupted e f).stepIdx = s.stepIdx := rfl
@[simp] theorem State.interrupted_running : (s.interrupted e f).run.running = none := rfl
@[simp] theorem State.interrupted_requests : (s.interrupted e f).run.requests = s.run.requests := rfl
@[simp] theorem State.interrupted_trace : (s.interrupted e f).run.trace = s.run.trace ++ [e] := rfl
@[simp] theorem State.interrupted_results : (s.interrupted e f).run.results = s.run.results ++ [.err f] := rfl

end

/-! ### A call is accepted, or fails with the fault its event shows -/

/-- A call whose event shows no fault is one the environment accepts. -/
theorem State.callEvent_accepted {s : State} {c : Call} (h : (s.callEvent c).raised = none) :
    s.callEvent c = s.acceptedEvent c ∧ s.grants [s.acceptedEvent c] := by
  cases c with
  | send | data | chunk =>
    cases hok : s.nextTx with
    | ok => simp [State.callEvent, State.acceptedEvent, State.grants, Event.ofTransport, Event.ofPin, hok, ← s.nextTx_eq]
    | fault v => simp [State.callEvent, Event.raised, hok] at h
  | pin level =>
    cases hok : s.nextPin with
    | ok => simp [State.callEvent, State.acceptedEvent, State.grants, Event.ofTransport, Event.ofPin, hok, ← s.nextPin_eq]
    | fault v => simp [State.callEvent, Event.raised, hok] at h
  | delay ms => exact ⟨rfl, nofun, nofun⟩

/-- WHAT ONE CALL CAN DO: it records its event and the operation goes on, or its event shows a fault and that is taken. -/
theorem perform_recorded_or_interrupted {c : Call} {s t : State} (hin : c.within s.cfg) (h : perform c s = .next t) :
    ((s.callEvent c).raised = none ∧ t = s.recorded [s.callEvent c]) ∨
    ∃ f, (s.callEvent c).raised = some f ∧ t = s.interrupted (s.callEvent c) f := by
  cases hraised : (s.callEvent c).raised with
  | none =>
    obtain ⟨hevent, hgrants⟩ := State.callEvent_accepted hraised
    rw [perform_accepted hin hgrants, ← hevent] at h
    exact .inl ⟨rfl, (Host.Outcome.next.inj h).symm⟩
  | some f =>
    rw [perform_failed hin hraised] at h
    exact .inr ⟨f, rfl, (Host.Outcome.next.inj h).symm⟩

/-! ### A step shows a fault only by a failing call -/

/-- From `s` to `t` no call failed: an event made shows no fault, and no `Err` was returned. -/
def State.faultless (s t : State) : Prop :=
  (∀ e, t.run.trace = s.run.trace ++ [e] → e.raised = none) ∧ ∀ f, t.run.results ≠ s.run.results ++ [.err f]

/-- Without an event, a step that returns nothing or no `Err` shows no fault. -/
theorem State.faultless_of_quiet {s t : State} (htrace : t.run.trace = s.run.trace)
    (hresults : ∀ f, t.run.results ≠ s.run.results ++ [.err f]) : s.faultless t :=
  ⟨fun e he => by simp [htrace] at he, hresults⟩

theorem State.faultless_of_event {s t : State} {e : Event} (htrace : t.run.trace = s.run.trace ++ [e])
    (he : e.raised = none) (hresults : ∀ f, t.run.results ≠ s.run.results ++ [.err f]) : s.faultless t := by
  refine ⟨fun e' he' => ?_, hresults⟩
  obtain rfl : e = e' := by simpa [htrace] using he'
  exact he

/-- One step of an operation shows no fault, or its call fails and the operation is interrupted. -/
theorem runOp_faultless_or_interrupted {o : HostOp} {u t : State} (h : runOp o u = .next t) :
    u.faultless t ∨
    ∃ c f, o.callAt u.cfg u.stepIdx = some c ∧ (u.callEvent c).raised = some f ∧
      t = u.interrupted (u.callEvent c) f := by
  rcases runOp_next h with ⟨-, -, r, rfl, hr⟩ | ⟨c, v, hc, hp, hv⟩ | ⟨-, m, -, -, rfl | ⟨e, es, -, -, rfl⟩⟩
  · refine .inl (State.faultless_of_quiet rfl fun f => ?_)
    rcases hr with rfl | ⟨bytes, length, rfl⟩ <;> simp
  · rcases perform_recorded_or_interrupted (HostOp.callAt_within hc) hp with ⟨hraised, rfl⟩ | ⟨f, hraised, rfl⟩
    · rcases hv with ⟨rfl, -⟩ | ⟨rfl, -, -⟩ <;> exact .inl (State.faultless_of_event rfl hraised (by simp))
    · rcases hv with ⟨rfl, -⟩ | ⟨-, hsome, -⟩
      · exact .inr ⟨c, f, hc, hraised, rfl⟩
      · simp at hsome
  · exact .inl (State.faultless_of_quiet rfl fun f => by simp)
  · exact .inl (State.faultless_of_quiet rfl fun f => by simp)

section

variable {s t u : State} {o : HostOp} {f : OpFault}

/-- A step that records a failing event interrupts the operation with that event's fault. -/
theorem step_of_raised {e : Event} (hf : fetch s = .run o u) (h : step s = .next t)
    (htrace : t.run.trace = s.run.trace ++ [e]) (he : e.raised = some f) : t = u.interrupted e f := by
  obtain ⟨-, -, -, hpast, -⟩ := fetch_run_frame hf
  rcases runOp_faultless_or_interrupted (runOp_of_step hf h) with ⟨hnone, -⟩ | ⟨c, g, -, hraised, rfl⟩
  · simp [hnone e (htrace.trans (by rw [hpast]))] at he
  · obtain rfl : u.callEvent c = e := by simpa [hpast] using htrace
    obtain rfl : g = f := by simpa [hraised] using he
    rfl

/-- A step that returns `Err` made a call of the operation that failed with the fault returned. -/
theorem step_of_err (hf : fetch s = .run o u) (h : step s = .next t)
    (hresults : t.run.results = s.run.results ++ [.err f]) :
    ∃ c, o.callAt u.cfg u.stepIdx = some c ∧ (u.callEvent c).raised = some f ∧ t = u.interrupted (u.callEvent c) f := by
  obtain ⟨-, -, -, -, hpast, -⟩ := fetch_run_frame hf
  rcases runOp_faultless_or_interrupted (runOp_of_step hf h) with ⟨-, hnone⟩ | ⟨c, g, hc, hraised, rfl⟩
  · exact absurd (hresults.trans (by rw [hpast])) (hnone f)
  · obtain rfl : g = f := by simpa [hpast] using hresults
    exact ⟨c, hc, hraised, rfl⟩

end

/-- Settles O41: a failing event interrupts the operation, and an `Err` comes from a call that failed with it. -/
theorem failingCallEndsTheOperation : Obligations.FailingCallEndsTheOperation := by
  intro s t u o hf h
  obtain ⟨hfb, hcfg, -, htrace, hresults, -⟩ := fetch_run_frame hf
  refine ⟨fun e f he hraised => ?_, fun f herr => ?_⟩
  · obtain rfl := step_of_raised hf h he hraised
    simp [hresults, hfb, hcfg]
  · obtain ⟨c, -, hraised, rfl⟩ := step_of_err hf h herr
    exact ⟨u.callEvent c, by simp [htrace], hraised⟩

/-! ### Which call can fail with which fault, and where it stands (R141) -/

/-- The call is one of the transport. -/
def Call.ofTransport : Call → Bool
  | .send _ | .data _ | .chunk _ _ => true
  | .pin _ | .delay _ => false

/-- The call is one of the reset pin. -/
def Call.ofPin : Call → Bool
  | .pin _ => true
  | .send _ | .data _ | .chunk _ _ | .delay _ => false

theorem State.ofTransport_of_callEvent_raised {s : State} {c : Call} {v : TransportFault}
    (h : (s.callEvent c).raised = some (.transport v)) : c.ofTransport = true := by
  cases c with
  | send | data | chunk => rfl
  | pin level => cases hans : s.nextPin <;> simp [State.callEvent, Event.raised, hans] at h
  | delay ms => cases h

theorem State.ofPin_of_callEvent_raised {s : State} {c : Call} {e : PinFault}
    (h : (s.callEvent c).raised = some (.pin e)) : c.ofPin = true := by
  cases c with
  | pin level => rfl
  | send | data | chunk => cases hans : s.nextTx <;> simp [State.callEvent, Event.raised, hans] at h
  | delay ms => cases h

theorem resetCalls_ofTransport : ∀ c ∈ resetCalls, c.ofTransport = false := by decide

/-- The pin calls of `reset` are its steps 0, 2 and 4 (R101). -/
theorem resetCalls_ofPin : ∀ p ∈ resetCalls.zipIdx, p.1.ofPin = true → p.2 = 0 ∨ p.2 = 2 ∨ p.2 = 4 := by decide

theorem initCalls_ofPin : ∀ c ∈ initCalls, c.ofPin = false := by decide

/-- The transport calls of `init` are its listed send steps (R102). -/
theorem initCalls_ofTransport : ∀ p ∈ initCalls.zipIdx, p.1.ofTransport = true → p.2 ∈ initSendSteps := by decide

/-- Only `reset` calls the pin. -/
theorem HostOp.callAt_ofPin {c : Config} {o : HostOp} {k : Nat} {d : Call} (h : o.callAt c k = some d)
    (hd : d.ofPin = true) : o = .reset ∧ (k = 0 ∨ k = 2 ∨ k = 4) := by
  have hlist {calls : List Call} (hnone : ∀ e ∈ calls, e.ofPin = false) (hc : calls[k]? = some d) : False := by
    simp [hnone d (List.mem_of_getElem? hc)] at hd
  cases o with
  | reset => exact ⟨rfl, resetCalls_ofPin (d, k) (List.mk_mem_zipIdx_iff_getElem?.2 h) hd⟩
  | init => exact (hlist initCalls_ofPin h).elim
  | send i => exact (hlist (by simp [sendCalls, Call.ofPin]) h).elim
  | draw buffer => exact (hlist (by simp [drawCalls, Call.ofPin]) h).elim
  | setDisplayOn on => exact (hlist (by simp [setDisplayOnCalls, Call.ofPin]) h).elim
  | setDrawArea sx sy ex ey => exact (hlist (by simp [setDrawAreaCalls, Call.ofPin]) h).elim
  | flush =>
    obtain ⟨-, hchunk⟩ := Option.ite_none_right_eq_some.1 h
    obtain rfl := Option.some.inj hchunk
    cases hd
  | encode | clear | setPixel | drawPixels => cases h

/-- Settles O43: the `Err` comes from the call of the step's position, which is of the pin or of the transport. -/
theorem faultKindsPerOperation : Obligations.FaultKindsPerOperation := by
  intro s t u o hf h
  refine ⟨fun e herr => ?_, fun v herr => ?_⟩
  · obtain ⟨c, hc, hraised, -⟩ := step_of_err hf h herr
    exact HostOp.callAt_ofPin hc (State.ofPin_of_callEvent_raised hraised)
  · obtain ⟨c, hc, hraised, -⟩ := step_of_err hf h herr
    have htx := State.ofTransport_of_callEvent_raised hraised
    cases o with
    | reset => simp [resetCalls_ofTransport c (List.mem_of_getElem? hc)] at htx
    | init => exact .inr (.inl ⟨rfl, initCalls_ofTransport (c, u.stepIdx) (List.mk_mem_zipIdx_iff_getElem?.2 hc) htx⟩)
    | send | draw | setDisplayOn | setDrawArea | flush => simp
    | encode | clear | setPixel | drawPixels => cases hc

/-! ### What a failing event leaves of the outward effects (R144) -/

section

variable {e : Event} {f : OpFault}

theorem Sent.after_of_raised (r : Sent) (h : e.raised = some f) : r.after e = r := by
  cases e with
  | cmd bytes a => cases a with
    | ok => cases h
    | fault v => rfl
  | data | pin | wait => rfl

theorem waitTotal_of_raised (h : e.raised = some f) : waitTotal [e] = 0 := by
  cases e with
  | cmd | data | pin => rfl
  | wait ms => cases h

theorem lastDrivenAfter_of_raised (last : Option Level) (h : e.raised = some f) : lastDrivenAfter last e = last := by
  cases e with
  | pin level a => cases a with
    | ok => cases h
    | fault v => rfl
  | cmd | data | wait => rfl

theorem ResetLine.after_of_transport {v : TransportFault} (line : ResetLine) (h : e.raised = some (.transport v)) :
    line.after e = line := by
  cases e with
  | pin level a => cases a <;> cases h
  | cmd | data | wait => rfl

end

/-- Settles O42: the operation is interrupted, which keeps the buffer, and a failing event adds nothing to what was sent,
slept or driven. -/
theorem faultKeepsTheOutwardEffects : Obligations.FaultKeepsTheOutwardEffects := by
  intro s t e f h htrace hraised
  have hfb : t.fb = s.fb := by
    rcases step_next h with ⟨-, rfl⟩ | ⟨o, u, hf, -⟩
    · rfl
    · obtain rfl := step_of_raised hf h htrace hraised
      obtain ⟨hfb, -⟩ := fetch_run_frame hf
      rw [State.interrupted_fb, hfb]
  rw [htrace, lastSent_snoc, waitTotal_append, lastDriven_snoc, resetLine_snoc]
  refine ⟨hfb, Sent.after_of_raised _ hraised, by rw [waitTotal_of_raised hraised, Nat.add_zero],
    lastDrivenAfter_of_raised _ hraised, ?_, ?_⟩
  · rintro v rfl
    exact ResetLine.after_of_transport _ hraised
  · rintro level v rfl hline
    rw [hline]
    exact ResetLine.afterFailed_same level

/-! ### The next operation (R150, R151) -/

/-- The operation invoked is fetched in the state in which it has just begun. -/
theorem fetch_invokes {s : State} {o : HostOp} {rest : List Request} (h : s.invokes o rest)
    (ha : o.availableIn s.cfg.mode = true) : fetch s = .run o (s.begin o rest) := by
  obtain ⟨hrunning, hrequests⟩ := h
  simp [fetch, hrunning, hrequests, ha]

/-- Settles O45: beginning an operation sets the step index and keeps the rest. -/
theorem nextOperationStartsAtZero : Obligations.NextOperationStartsAtZero := fun s o rest h ha =>
  ⟨s.begin o rest, fetch_invokes h ha, rfl, rfl, rfl, rfl, rfl, rfl, rfl⟩

/-! ### What a call may have delivered (R145) -/

/-- Of a failed call any leading part may have arrived, on either channel. -/
theorem Event.mayDeliver_failed_iff (sent got : List Byte) (v : TransportFault) :
    ((Event.cmd sent (.fault v)).mayDeliver got ↔ got <+: sent) ∧
    ((Event.data sent (.fault v)).mayDeliver got ↔ got <+: sent) := ⟨Iff.rfl, Iff.rfl⟩

/-- Settles O46: nothing, everything and the first `n` bytes are each a leading part. -/
theorem failedCallMayDeliverAnyLeadingPart : Obligations.FailedCallMayDeliverAnyLeadingPart := by
  intro sent got v
  simp only [Event.mayDeliver_failed_iff]
  exact ⟨Iff.rfl, Iff.rfl, List.nil_prefix, List.prefix_rfl, List.nil_prefix, List.prefix_rfl,
    fun n => List.take_prefix n sent, fun n => List.take_prefix n sent⟩

end Sys2Proof.Machine

/-! SUPPORT. Reset and hazards: which call an event of a step comes from, what a fault-free `reset` leaves, how long the handle's
operations sleep, and the step that has nothing to do. -/

namespace Sys2Proof.Machine

/-! ### The event of a step is that of its call (R11, R169) -/

/-- One step of an operation leaves the trace, or records the event of the call of its position, whichever the answer. -/
theorem runOp_trace {o : HostOp} {u t : State} (h : runOp o u = .next t) :
    t.run.trace = u.run.trace ∨
    ∃ c, o.callAt u.cfg u.stepIdx = some c ∧ t.run.trace = u.run.trace ++ [u.callEvent c] := by
  rcases runOp_next h with ⟨-, -, r, rfl, -⟩ | ⟨c, v, hc, hp, hv⟩ | ⟨-, m, -, -, rfl | ⟨e, es, -, -, rfl⟩⟩
  · exact .inl rfl
  · have hrecorded : v.run.trace = u.run.trace ++ [u.callEvent c] := by
      rcases perform_recorded_or_interrupted (HostOp.callAt_within hc) hp with ⟨-, rfl⟩ | ⟨f, -, rfl⟩ <;> rfl
    rcases hv with ⟨rfl, -⟩ | ⟨rfl, -, -⟩ <;> exact .inr ⟨c, hc, hrecorded⟩
  · exact .inl rfl
  · exact .inl rfl

/-- An event of a step is that of the call at the position of the operation fetched. -/
theorem step_event {s t : State} {e : Event} (h : step s = .next t) (htrace : t.run.trace = s.run.trace ++ [e]) :
    ∃ o u c, fetch s = .run o u ∧ o.callAt u.cfg u.stepIdx = some c ∧ u.callEvent c = e := by
  rcases step_next h with ⟨-, rfl⟩ | ⟨o, u, hf, ho⟩
  · simp at htrace
  · obtain ⟨-, -, -, hpast, -⟩ := fetch_run_frame hf
    rw [← hpast] at htrace
    rcases runOp_trace ho with hquiet | ⟨c, hc, hevent⟩
    · simp [hquiet] at htrace
    · exact ⟨o, u, c, hf, hc, by simpa [hevent] using htrace⟩

/-- Only a send is a call of the command channel, and it carries its Command's encoding (R95). -/
theorem State.callEvent_eq_cmd_iff {s : State} {c : Call} {bytes : List Byte} {a : Answer TransportFault} :
    s.callEvent c = .cmd bytes a ↔ ∃ i, c = .send i ∧ encode i = bytes ∧ s.nextTx = a := by
  cases c with
  | send | data | chunk | pin | delay => simp [State.callEvent]

/-- Settles O18: a command-channel event is that of a send, whose bytes are its Command's encoding. -/
theorem everyCommandCallIsOneEncoding : Obligations.EveryCommandCallIsOneEncoding := by
  intro s t bytes a h htrace
  obtain ⟨o, u, c, -, -, hevent⟩ := step_event h htrace
  obtain ⟨i, -, rfl, -⟩ := State.callEvent_eq_cmd_iff.1 hevent
  exact ⟨i, rfl, length_encode i⟩

/-! ### What a fault-free `reset` leaves, and the sleeps (R161, R177, R178) -/

/-- An operation adds the sleeps of its events to the trace's. -/
theorem State.ends.waitTotal {s t : State} {es : List Event} {r : OpResult} {rest : List Request}
    (h : s.ends t es r rest) : waitTotal t.run.trace = waitTotal s.run.trace + waitTotal es := by
  obtain ⟨-, -, htrace, -⟩ := h
  rw [htrace, waitTotal_append]

theorem waitTotal_resetEvents : waitTotal resetEvents = 31 := by decide

theorem waitTotal_initEvents : waitTotal initEvents = 550 := by decide

/-- A fault-free `reset` calls the pin alone, leaves the line high and makes its six events (R101, by O19). -/
theorem reset_endsOk {s : State} {rest : List Request} (h : s.invokes .reset rest)
    (hok : ∀ k < 3, s.pinAnswer k = .ok) :
    ∃ t, steps 6 s = .next t ∧ s.pinOnly t 3 ∧ resetLine t.run.trace = .driven .high ∧
      s.ends t resetEvents .ok rest := by
  obtain ⟨haccepted, -⟩ := resetPulsesThePin s rest h
  obtain ⟨t, hsteps, hpin, -, hline, hends⟩ := haccepted hok
  exact ⟨t, hsteps, hpin, hline, hends⟩

/-- Settles O24: the sleeps are those of the six events of `reset` and of the 24 of `init`. -/
theorem sleepsAddUp : Obligations.SleepsAddUp := by
  refine ⟨fun s rest h hok => ?reset, fun s rest h hok => ?init⟩
  case reset =>
    obtain ⟨t, hsteps, -, -, hends⟩ := reset_endsOk h hok
    exact ⟨t, hsteps, waitTotal_resetEvents ▸ hends.waitTotal⟩
  case init =>
    obtain ⟨t, hsteps, hends, -⟩ := initEmitsTheTwentyFourEvents s rest h hok
    exact ⟨t, hsteps, waitTotal_initEvents ▸ hends.waitTotal⟩

/-- Settles O20: only the pin was called, which keeps the buffer and the parameters. -/
theorem resetLeavesTheLineHigh : Obligations.ResetLeavesTheLineHigh := by
  intro s rest h hok
  obtain ⟨t, hsteps, ⟨hcfg, hfb, -⟩, hline, -, -, htrace, -⟩ := reset_endsOk h hok
  exact ⟨t, hsteps, hfb, hcfg, hline, htrace⟩

/-! ### Nothing to do (R160) -/

/-- Settles O48: without an operation and without a request there is nothing to fetch. -/
theorem idleStepDoesNothing : Obligations.IdleStepDoesNothing := fun _ hrunning hrequests =>
  step_idle hrunning hrequests

end Sys2Proof.Machine
